-- ==== Sys2Proof/Word.lean ====
section
/-! DEFINITION. The word types of SECDED32 (spec R7: every value is an unsigned bit vector of a stated width). -/

namespace Sys2Proof

/-- A 32-bit operand, codeword or response (R70, R78). -/
abbrev Word := BitVec 32

/-- A byte of the output buffer (R32). -/
abbrev Byte := BitVec 8

/-- A command word, `cmd[35:0]` (R70). -/
abbrev CommandWord := BitVec 36

/-- The 26 data bits of one codeword, `d0` the most significant (R126). -/
abbrev Data := BitVec 26

end Sys2Proof
end

