-- ==== Sys2Proof/Syntax.lean ====
section
/-! DEFINITION. The command set: one constructor per row of spec/opcode_table.json (13 commands, 3 reserved
opcodes), each with the operand fields of its format (R71, R73). -/

namespace Sys2Proof

/-- A decoded command. An operand field has the width the format gives it, so a nonzero reserved operand bit
(R75) cannot be written down here: the decoder rejects such a word. -/
inductive Instr where
  /-- `NOP` (op 0x0, format Z, R160). -/
  | nop
  /-- `CLR` (op 0x1, format Z, R161). -/
  | clr
  /-- `BEGIN size` (op 0x2, format S, R141). -/
  | beginPacket (size : BitVec 10)
  /-- `PUSHW w` (op 0x3, format W, R143). -/
  | pushw (w : Word)
  /-- `END` (op 0x4, format Z, R145). -/
  | endPacket
  /-- `RDB index` (op 0x5, format A, R147). -/
  | rdb (index : BitVec 9)
  /-- `RDR n` (op 0x6, format N, R162); `n = 7` matches the row and is reserved (R75). -/
  | rdr (n : BitVec 3)
  /-- `BSWAP w` (op 0x8, format W, R94). -/
  | bswap (w : Word)
  /-- `BREV8 w` (op 0x9, format W, R95). -/
  | brev8 (w : Word)
  /-- `REORD w` (op 0xA, format W, R96). -/
  | reord (w : Word)
  /-- `PCHK w` (op 0xB, format W, R105). -/
  | pchk (w : Word)
  /-- `DECW w` (op 0xC, format W, R117). -/
  | decw (w : Word)
  /-- `XTR w` (op 0xD, format W, R127). -/
  | xtr (w : Word)
  /-- Reserved opcode 0x7 with its don't-care operand (R74). -/
  | reserved7 (x : Word)
  /-- Reserved opcode 0xE with its don't-care operand (R74). -/
  | reservedE (x : Word)
  /-- Reserved opcode 0xF with its don't-care operand (R74). -/
  | reservedF (x : Word)
  deriving DecidableEq, Repr

end Sys2Proof
end

