-- ==== Sys2Proof/WellFormed.lean ====
section
/-! DEFINITION. Which decoded commands pass steps 2 and 3 of the decoding order (R81): not a reserved opcode
(R74), not the reserved register number 7 (R75). What a field's value must be beyond that is the command's own
check and no matter of encoding (R75, last sentence). -/

namespace Sys2Proof

/-- The register numbers `RDR` may name (R33, R75): 0 to 6. -/
def Instr.registerNumberLegal (n : BitVec 3) : Bool := n != 7#3

/-- The command is well formed: the block never raises `ILLEGAL` for it (R173). -/
def Instr.wf : Instr → Bool
  | .rdr n => registerNumberLegal n
  | .reserved7 _ => false
  | .reservedE _ => false
  | .reservedF _ => false
  | .nop => true
  | .clr => true
  | .beginPacket _ => true
  | .pushw _ => true
  | .endPacket => true
  | .rdb _ => true
  | .bswap _ => true
  | .brev8 _ => true
  | .reord _ => true
  | .pchk _ => true
  | .decw _ => true
  | .xtr _ => true

end Sys2Proof
end

