-- ==== Sys2Proof/Decode.lean ====
section
/-! DEFINITION. Decoding a 36-bit command word (R70 to R77, R81), the encoder written from the same formats, and
the rows of spec/opcode_table.json as match and mask (R82). -/

namespace Sys2Proof

/-- Why a command word is no command. -/
inductive DecodeError where
  /-- An operand bit that the format of opcode `op` reserves is 1 (R75). -/
  | reservedOperandBits (op : BitVec 4) (arg : Word)
  deriving DecidableEq, Repr

/-- `op = cmd[35:32]` (R70). -/
def opcodeOf (c : CommandWord) : BitVec 4 := c.extractLsb' 32 4

/-- `arg = cmd[31:0]` (R70). -/
def argOf (c : CommandWord) : Word := c.extractLsb' 0 32

/-- `cmd = op ‖ arg` (R70). -/
def commandWord (op : BitVec 4) (arg : Word) : CommandWord := op ++ arg

/-- The bits of `arg` from bit `n` up are the format's reserved bits: all of them must be 0 (R71, R75). -/
def reservedZero (n : Nat) (arg : Word) : Bool := arg >>> n == 0#32

/-- A field of the low `width` bits of `arg`, all bits above it reserved (formats Z, S, A, N of R71). -/
def fieldOf (op : BitVec 4) (width : Nat) (arg : Word) (i : BitVec width → Instr) : Except DecodeError Instr :=
  if reservedZero width arg then .ok (i (arg.setWidth width)) else .error (.reservedOperandBits op arg)

/-- The opcode map (R73): the opcode alone selects the command, the format then divides the operand (R71). -/
def decodeFields (op : BitVec 4) (arg : Word) : Except DecodeError Instr :=
  match op.toNat with
  | 0x0 => fieldOf op 0 arg (fun _ => .nop)
  | 0x1 => fieldOf op 0 arg (fun _ => .clr)
  | 0x2 => fieldOf op 10 arg .beginPacket
  | 0x3 => .ok (.pushw arg)
  | 0x4 => fieldOf op 0 arg (fun _ => .endPacket)
  | 0x5 => fieldOf op 9 arg .rdb
  | 0x6 => fieldOf op 3 arg .rdr
  | 0x7 => .ok (.reserved7 arg)
  | 0x8 => .ok (.bswap arg)
  | 0x9 => .ok (.brev8 arg)
  | 0xA => .ok (.reord arg)
  | 0xB => .ok (.pchk arg)
  | 0xC => .ok (.decw arg)
  | 0xD => .ok (.xtr arg)
  | 0xE => .ok (.reservedE arg)
  | _ => .ok (.reservedF arg)

/-- The decoder, total on all `2^36` command words (R76, R81). -/
def decode (c : CommandWord) : Except DecodeError Instr := decodeFields (opcodeOf c) (argOf c)

/-- The opcode of a command (R73). -/
def opcode : Instr → BitVec 4
  | .nop => 0x0#4
  | .clr => 0x1#4
  | .beginPacket _ => 0x2#4
  | .pushw _ => 0x3#4
  | .endPacket => 0x4#4
  | .rdb _ => 0x5#4
  | .rdr _ => 0x6#4
  | .reserved7 _ => 0x7#4
  | .bswap _ => 0x8#4
  | .brev8 _ => 0x9#4
  | .reord _ => 0xA#4
  | .pchk _ => 0xB#4
  | .decw _ => 0xC#4
  | .xtr _ => 0xD#4
  | .reservedE _ => 0xE#4
  | .reservedF _ => 0xF#4

/-- The operand of a command, its reserved bits 0 (R71, R72: no field is scaled, shifted or sign-extended). -/
def operand : Instr → Word
  | .nop => 0#32
  | .clr => 0#32
  | .beginPacket size => size.setWidth 32
  | .pushw w => w
  | .endPacket => 0#32
  | .rdb index => index.setWidth 32
  | .rdr n => n.setWidth 32
  | .reserved7 x => x
  | .bswap w => w
  | .brev8 w => w
  | .reord w => w
  | .pchk w => w
  | .decw w => w
  | .xtr w => w
  | .reservedE x => x
  | .reservedF x => x

/-- The command word of a command (R70, R79). -/
def encode (i : Instr) : CommandWord := commandWord (opcode i) (operand i)

/-- The `mask` of the command's row in spec/opcode_table.json: the opcode and the reserved operand bits (R82). -/
def rowMask : Instr → CommandWord
  | .nop => 0xFFFFFFFFF#36
  | .clr => 0xFFFFFFFFF#36
  | .beginPacket _ => 0xFFFFFFC00#36
  | .pushw _ => 0xF00000000#36
  | .endPacket => 0xFFFFFFFFF#36
  | .rdb _ => 0xFFFFFFE00#36
  | .rdr _ => 0xFFFFFFFF8#36
  | .reserved7 _ => 0xF00000000#36
  | .bswap _ => 0xF00000000#36
  | .brev8 _ => 0xF00000000#36
  | .reord _ => 0xF00000000#36
  | .pchk _ => 0xF00000000#36
  | .decw _ => 0xF00000000#36
  | .xtr _ => 0xF00000000#36
  | .reservedE _ => 0xF00000000#36
  | .reservedF _ => 0xF00000000#36

/-- The `match` of the command's row in spec/opcode_table.json (R82). -/
def rowMatch : Instr → CommandWord
  | .nop => 0x000000000#36
  | .clr => 0x100000000#36
  | .beginPacket _ => 0x200000000#36
  | .pushw _ => 0x300000000#36
  | .endPacket => 0x400000000#36
  | .rdb _ => 0x500000000#36
  | .rdr _ => 0x600000000#36
  | .reserved7 _ => 0x700000000#36
  | .bswap _ => 0x800000000#36
  | .brev8 _ => 0x900000000#36
  | .reord _ => 0xA00000000#36
  | .pchk _ => 0xB00000000#36
  | .decw _ => 0xC00000000#36
  | .xtr _ => 0xD00000000#36
  | .reservedE _ => 0xE00000000#36
  | .reservedF _ => 0xF00000000#36

/-- A command word selects a row when `(c AND mask) = match` (R82). -/
def selectsRow (c : CommandWord) (i : Instr) : Bool := c &&& rowMask i == rowMatch i

/-- The command word in the low `nbits` bits of a table number `w`: bit 0 is `cmd[0]` (R70, R82). A number
with a 1 above bit 35 is no command word (log 10). -/
def tableCommandWord (nbits w : Nat) : Option CommandWord :=
  let v := w % 2 ^ nbits
  if v < 2 ^ 36 then some (BitVec.ofNat 36 v) else none

/-- The command the decoder reads from a word written as spec/opcode_table.json numbers its bits. -/
def decodeTableWord (nbits w : Nat) : Option Instr :=
  match tableCommandWord nbits w with
  | some c => (decode c).toOption
  | none => none

end Sys2Proof
end

