-- ==== Sys2Proof/Config.lean ====
section
/-! DEFINITION. What the hardware fixes once (R5) and the free values: what the spec leaves unspecified. -/

namespace Sys2Proof.Config

/-- `MAXBLK`, the largest payload size in wire bytes (R5, conflict C5). -/
def maxBlk : Nat := 512

/-- `MAXOUT`, the number of bytes of the output buffer (R5, R32). -/
def maxOut : Nat := 416

/-- `TRIM_MAX`, the most trailing zero bytes the trim removes (R5, R132). -/
def trimMax : Nat := 4

/-- FREE VALUE (log 5). The 416 bytes of `OBUF` after the `n`-th hardware reset of a run: the spec says
they are unspecified (R37, R190, U18 "any value"). It has no body, so no proof can see what they are. -/
opaque obufAfterReset : Nat → Vector Byte 416

end Sys2Proof.Config
end

