-- ==== Sys2Proof/Machine/State.lean ====
section
/-! DEFINITION. The state of the machine as plain data: the block's registers, exactly those of R20, and the
command port. -/

namespace Sys2Proof.Machine

/-- The output buffer as (address, byte) pairs in canonical form (`Memory.wf`): addresses strictly rising, no
entry equal to what an unlisted address reads as. -/
abbrev Memory := List Host.Cell

/-- The complete architectural state of the block: the table of R20, row by row. -/
structure Block where
  /-- `CW`: the last decoded codeword, in logical order, after the correction step (R21). -/
  cw : BitVec 32
  /-- `SYN`: the error position of that codeword (R22). -/
  syn : BitVec 5
  /-- `UNC`: that codeword was uncorrectable (R23). -/
  unc : Bool
  /-- `ACTIVE`: a packet is open (R28). -/
  active : Bool
  /-- `DONE`: the last packet was closed by `END` and no `BEGIN` since (R28). -/
  done : Bool
  /-- `INVALID`: an uncorrectable codeword was met in the packet (R28). -/
  invalid : Bool
  /-- `SIZE`: payload size in bytes (R26). -/
  size : BitVec 10
  /-- `WCNT`: wire groups pushed so far (R25). -/
  wcnt : BitVec 8
  /-- `OCNT`: whole output bytes written so far (R30). -/
  ocnt : BitVec 9
  /-- `RCNT`: data bits extracted but not yet part of a whole byte (R30). -/
  rcnt : BitVec 3
  /-- `RES`: those bits, right-aligned, the oldest most significant (R30). -/
  res : BitVec 6
  /-- `OLEN`: the length in bytes of the readable output (R31). -/
  olen : BitVec 9
  /-- `OBUF[0..415]`: the output bytes (R32). -/
  obuf : Memory
  /-- `FAULTED`: a command was refused, sticky (R29). -/
  faulted : Bool
  /-- `ERR`: the code of the first fault (R29, R171). -/
  err : BitVec 3
  deriving DecidableEq, Repr

/-- The response to one command (R78). -/
structure Response where
  rsp : Word
  err : Bool
  deriving DecidableEq, Repr

/-- The two things the host can do to the block (R9). -/
inductive HostAction where
  /-- Assert hardware reset (R190). -/
  | hardwareReset
  /-- Issue one command word and take its response (R70, R78). -/
  | command (c : CommandWord)
  deriving DecidableEq, Repr

/-- The machine: the block and its command port. -/
structure State where
  /-- The block's registers (R20). -/
  block : Block
  /-- The response to the latest command; none while no command has responded since reset (R78, log 3). -/
  response : Option Response
  /-- What the host does next, the first action first (R9, R203, log 1). -/
  host : List HostAction
  /-- The model's own field (log 5): how many hardware resets the run has taken; selects a free value. -/
  resets : Nat
  deriving DecidableEq, Repr

/-- The fault causes of R171 that a command can raise. Raising one is no stop of the machine: it is a next
state (R176). -/
inductive Cause where
  /-- Code 1: payload size not a multiple of 4, or above 512 (R172). -/
  | malformed
  /-- Code 2: reserved opcode, nonzero reserved operand bit, `RDR 7` (R173). -/
  | illegal
  /-- Code 3: command not legal in the packet's present state (R174). -/
  | sequence
  /-- Code 4: no closed valid packet, or index not below `OLEN` (R175). -/
  | notAvail
  deriving DecidableEq, Repr

/-- What stops the machine. None of the spec's own faults does (they are next states, R176). -/
inductive Fault where
  /-- `PUSHW`, `END` or `RDB` would touch `OBUF[addr]` with `addr` at or above 416: no such byte exists (R50,
  R56). Only a state that breaks R38 can come to it. SAFE: the machine stops where the spec gives no effect
  (log 6). -/
  | noSuchByte (addr : Nat)
  deriving DecidableEq, Repr

/-- What the model refuses to give a meaning. -/
inductive Refusal where
  /-- Raised by an arm of `exec` whose instruction has no meaning in the model yet; no arm does now. SAFE. -/
  | notModelled (mnemonic : String)
  deriving DecidableEq, Repr

/-- The block after hardware reset: every register and flag 0 (R37). `OBUF` lists nothing (log 4). -/
def Block.reset : Block where
  cw := 0
  syn := 0
  unc := false
  active := false
  done := false
  invalid := false
  size := 0
  wcnt := 0
  ocnt := 0
  rcnt := 0
  res := 0
  olen := 0
  obuf := []
  faulted := false
  err := 0

/-- The machine right after hardware reset (R37, R190): no command has responded, and the host's actions are
still to be placed (log 2, log 3). -/
def State.reset : State where
  block := Block.reset
  response := none
  host := []
  resets := 0

end Sys2Proof.Machine
end

