-- ==== Sys2Proof/Machine/Flags.lean ====
section
/-! DEFINITION. The flags as software reads them: the fault codes and the words `STATUS` and `PACK`. -/

namespace Sys2Proof.Machine

/-- The code of a fault cause, as `ERR` holds it (R171). -/
def Cause.code : Cause → BitVec 3
  | .malformed => 1#3
  | .illegal => 2#3
  | .sequence => 3#3
  | .notAvail => 4#3

/-- A one-bit flag as a bit vector. -/
def flagBit (b : Bool) : BitVec 1 := BitVec.ofBool b

/-- `STATUS` (R34): from bit 31 down, 19 zero bits, `SYN`, `UNC`, `ERR`, `FAULTED`, `INVALID`, `DONE`, `ACTIVE`. -/
def statusWord (b : Block) : Word :=
  0#19 ++ b.syn ++ flagBit b.unc ++ b.err ++ flagBit b.faulted ++ flagBit b.invalid ++ flagBit b.done ++
    flagBit b.active

/-- `PACK` (R35): from bit 31 down, 2 zero bits, `RES`, 5 zero bits, `RCNT`, 7 zero bits, `OCNT`. -/
def packWord (b : Block) : Word :=
  0#2 ++ b.res ++ 0#5 ++ b.rcnt ++ 0#7 ++ b.ocnt

/-- `ID` (R36). -/
def idWord : Word := 0x5ECDED32#32

/-- A closed, valid packet (R146): the only condition under which output may be read (R148). -/
def Block.closedValid (b : Block) : Bool := b.done && !b.invalid

/-- The number of codewords of the packet, `SIZE div 4` (R26). -/
def Block.groups (b : Block) : Nat := b.size.toNat / 4

end Sys2Proof.Machine
end

