-- ==== Sys2Proof/Machine/Operands.lean ====
section
/-! DEFINITION. The operand forms: the codeword index convention (R6), a wire group as a `PUSHW` operand (R51),
and the register number of `RDR` (R33). The division of `arg` into fields (R71, R72) is the decoder's. -/

namespace Sys2Proof.Machine

/-- `bit(w, i)`: the document's index convention, index 0 the most significant bit of the word (R6). -/
def bitAt (w : Word) (i : Nat) : Bool := w.getLsbD (31 - i)

/-- The Hamming position `hp(i) = 32 - i` of index `i`, for `i` in 1 to 31 (R6). -/
def hammingPos (i : Nat) : Nat := 32 - i

/-- The word with a single 1 at index `i`, for `i` in 0 to 31 (last column of the table of R101). -/
def bitMask (i : Nat) : Word := 1#32 <<< (31 - i)

/-- `PUSHB b0, b1, b2, b3` (R51, R80): the byte received first is the most significant. -/
def wireGroup (b0 b1 b2 b3 : Byte) : Word := b0 ++ b1 ++ b2 ++ b3

/-- The register that `RDR n` reads (R33); none for the reserved number 7. -/
def readRegister (n : BitVec 3) (b : Block) : Option Word :=
  match n.toNat with
  | 0 => some (statusWord b)
  | 1 => some b.cw
  | 2 => some (b.size.setWidth 32)
  | 3 => some (b.wcnt.setWidth 32)
  | 4 => some (b.olen.setWidth 32)
  | 5 => some (packWord b)
  | 6 => some idWord
  | _ => none

end Sys2Proof.Machine
end

