-- ==== Sys2Proof/Machine/Ops.lean ====
section
/-! DEFINITION. The named operations every meaning is written over: the output buffer, the response, the fault
gate, fault entry, hardware reset, and taking the host's next action. -/

namespace Sys2Proof.Machine

/-- How every meaning answers. -/
abbrev Result := Host.Outcome State Fault Refusal

/-! ### The output buffer (R32, R50) -/

/-- What a byte of `OBUF` reads as while nothing has written it (log 4: R37 leaves it unspecified, U18 lets a
model start it at zero). -/
def Memory.unlisted : Byte := 0#8

/-- `OBUF[a]` for an address that exists. -/
def Memory.read : Memory → Nat → Byte
  | [], _ => Memory.unlisted
  | (b, v) :: m, a => if a = b then v else Memory.read m a

/-- An entry in front of `m`, left out when the byte reads so without it. -/
def Memory.cons (a : Nat) (v : Byte) (m : Memory) : Memory :=
  if v = Memory.unlisted then m else (a, v) :: m

/-- `OBUF[a] <- v`, keeping the canonical form. -/
def Memory.write : Memory → Nat → Byte → Memory
  | [], a, v => Memory.cons a v []
  | (b, u) :: m, a, v =>
    if a < b then Memory.cons a v ((b, u) :: m)
    else if a = b then Memory.cons a v m
    else (b, u) :: Memory.write m a v

/-- The bytes `vs` at `a`, `a + 1`, ... -/
def Memory.writeBytes : Memory → Nat → List Byte → Memory
  | m, _, [] => m
  | m, a, v :: vs => Memory.writeBytes (Memory.write m a v) (a + 1) vs

/-- Every listed address is at least `lo`, the addresses rise strictly, no entry is superfluous. -/
def Memory.wfFrom : Nat → Memory → Bool
  | _, [] => true
  | lo, (b, v) :: m => decide (lo ≤ b) && v != Memory.unlisted && Memory.wfFrom (b + 1) m

/-- The canonical form of memory. -/
def Memory.wf (m : Memory) : Bool := Memory.wfFrom 0 m

/-- Every listed address exists (R50). -/
def Memory.inRange (m : Memory) : Bool := m.all (fun c => decide (c.1 < Config.maxOut))

/-- A read of `OBUF[a]` by a command; an address from 416 on does not exist (log 6). -/
def loadByte (b : Block) (a : Nat) : Except Fault Byte :=
  if a < Config.maxOut then .ok (Memory.read b.obuf a) else .error (.noSuchByte a)

/-- A write of `vs` to `OBUF[a]` onward by a command; all of the addresses must exist (log 6). -/
def storeBytes (b : Block) (a : Nat) (vs : List Byte) : Except Fault Block :=
  if a + vs.length ≤ Config.maxOut then .ok { b with obuf := Memory.writeBytes b.obuf a vs }
  else .error (.noSuchByte (a + vs.length - 1))

/-! ### The response (R78) -/

/-- The command has executed: the block becomes `b`, the response is `rsp` with `err = 0`. -/
def respond (b : Block) (rsp : Word) (s : State) : State :=
  { s with block := b, response := some { rsp := rsp, err := false } }

/-- The command has executed and its response is `STATUS` as it stands after it (R78, first row). -/
def respondStatus (b : Block) (s : State) : State := respond b (statusWord b) s

/-- A meaning's end: the block the command leaves, or the stop it ran into. -/
def finish (r : Except Fault Block) (s : State) : Result :=
  match r with
  | .ok b => .next (respondStatus b s)
  | .error f => .fault f

/-! ### Faults (R176 to R178) -/

/-- The command is refused in the fault state: no state change, `rsp = STATUS`, `err = 1` (R178). -/
def refuse (s : State) : State :=
  { s with response := some { rsp := statusWord s.block, err := true } }

/-- Fault entry (R176): `FAULTED <- 1`, `ERR <- code`, `rsp <- STATUS'`, `err <- 1`, nothing else. -/
def faultEntry (c : Cause) (s : State) : State :=
  let b := { s.block with faulted := true, err := c.code }
  { s with block := b, response := some { rsp := statusWord b, err := true } }

/-- `raise Fault(code)`: fault entry, but a refusal while `FAULTED = 1` (R81, R178: a second fault is never
taken). -/
def raiseFault (c : Cause) (s : State) : State :=
  if s.block.faulted then refuse s else faultEntry c s

/-- The fault gate (R81 step 1, R178), which stands before every command but `CLR` and `RDR`. -/
def gated (s : State) (k : Result) : Result :=
  if s.block.faulted then .next (refuse s) else k

/-- A command word that decodes to no command (R75): `Fault(ILLEGAL)`, whatever its opcode. -/
def rejectWord (s : State) : State := raiseFault .illegal s

/-! ### Hardware reset and the command port (R9, R190) -/

/-- `OBUF` after the `n`-th hardware reset: unspecified, so 416 free bytes (R37, U18, log 5). -/
def obufAfterReset (n : Nat) : Memory := Memory.writeBytes [] 0 (Config.obufAfterReset n).toList

/-- Hardware reset (R37, R190): every register and flag 0, `OBUF` unspecified, no response outstanding. -/
def hardwareReset (s : State) : State :=
  { s with
    block := { Block.reset with obuf := obufAfterReset s.resets }
    response := none
    resets := s.resets + 1 }

/-- The host's next action and the machine once it is taken; none while the host does nothing. -/
def takeAction (s : State) : Option (HostAction × State) :=
  match s.host with
  | [] => none
  | a :: rest => some (a, { s with host := rest })

/-- The host issues nothing: the block stays as it is (R9: nothing else changes its state; log 2). -/
def idle (s : State) : State := s

/-- The host's next command is `c` (R9). -/
def issue (c : CommandWord) (s : State) : State := { s with host := .command c :: s.host }

end Sys2Proof.Machine
end

