-- ==== Sys2Proof/Machine/Transform.lean ====
section
/-! DEFINITION. The reordering unit (spec/40_transform.md) and its commands `BSWAP`, `BREV8`, `REORD`. -/

namespace Sys2Proof.Machine

/-- `rev8(b)[k] = b[7 - k]` (R90). -/
def rev8 (b : Byte) : Byte := b.reverse

/-- `B0 = w[31:24]` (R91). -/
def byte0 (w : Word) : Byte := w.extractLsb' 24 8

/-- `B1 = w[23:16]` (R91). -/
def byte1 (w : Word) : Byte := w.extractLsb' 16 8

/-- `B2 = w[15:8]` (R91). -/
def byte2 (w : Word) : Byte := w.extractLsb' 8 8

/-- `B3 = w[7:0]` (R91). -/
def byte3 (w : Word) : Byte := w.extractLsb' 0 8

/-- `bswap32(w) = B3 ‖ B2 ‖ B1 ‖ B0`: output byte `j` is input byte `3 - j` (R91, conflict C1). -/
def bswap32 (w : Word) : Word := byte3 w ++ byte2 w ++ byte1 w ++ byte0 w

/-- `brev8x4(w)`: the bits of each byte reversed, the bytes where they are (R92). -/
def brev8x4 (w : Word) : Word := rev8 (byte0 w) ++ rev8 (byte1 w) ++ rev8 (byte2 w) ++ rev8 (byte3 w)

/-- `reorder(w) = brev8x4(bswap32(w))`, wire group to codeword in logical order (R93). -/
def reorder (w : Word) : Word := brev8x4 (bswap32 w)

/-- A unit command that writes no state: the gate, then the response `v` (R94 to R96, R105, R127, R150). -/
def answer (v : Word) (s : State) : Result := gated s (.next (respond s.block v s))

/-- `BSWAP w` (R94). -/
def execBswap (w : Word) (s : State) : Result := answer (bswap32 w) s

/-- `BREV8 w` (R95). -/
def execBrev8 (w : Word) (s : State) : Result := answer (brev8x4 w) s

/-- `REORD w` (R96). -/
def execReord (w : Word) (s : State) : Result := answer (reorder w) s

end Sys2Proof.Machine
end

