-- ==== Sys2Proof/Machine/ParityCheck.lean ====
section
/-! DEFINITION. The parity-check matrix and its evaluator (spec/41_parity_check.md) and the command `PCHK`. -/

namespace Sys2Proof.Machine

/-- The five Hamming parity groups, named by their weights (R100). -/
inductive Group where
  | g1 | g2 | g4 | g8 | g16
  deriving DecidableEq, Repr

/-- The weight `c` of a group (R100). -/
def groupWeight : Group → Nat
  | .g1 => 1
  | .g2 => 2
  | .g4 => 4
  | .g8 => 8
  | .g16 => 16

/-- The row of the matrix `H` of a group, as a mask (R101). -/
def groupMask : Group → Word
  | .g1 => 0x55555555#32
  | .g2 => 0x66666666#32
  | .g4 => 0x78787878#32
  | .g8 => 0x7F807F80#32
  | .g16 => 0x7FFF8000#32

/-- The XOR of `f 0`, ..., `f (n - 1)`. -/
def xorBelow (f : Nat → Bool) : Nat → Bool
  | 0 => false
  | n + 1 => f n ^^ xorBelow f n

/-- `parity(w)`: the XOR of all bits of `w` (R7). -/
def parity (w : Word) : Bool := xorBelow w.getLsbD 32

/-- `hgroup(c, w) = parity(w AND Mc)` (R102). -/
def hgroup (g : Group) (w : Word) : Bool := parity (w &&& groupMask g)

/-- `overall(w) = parity(w)` (R103). -/
def overall (w : Word) : Bool := parity w

/-- `pcheck(w) = H . w`: weight 1 in bit 0 to weight 16 in bit 4, the overall parity in bit 5 (R104). -/
def pcheck (w : Word) : BitVec 6 :=
  flagBit (overall w) ++ flagBit (hgroup .g16 w) ++ flagBit (hgroup .g8 w) ++ flagBit (hgroup .g4 w) ++
    flagBit (hgroup .g2 w) ++ flagBit (hgroup .g1 w)

/-- `w` is a codeword of the code (R106). -/
def isCodeword (w : Word) : Bool := pcheck w == 0#6

/-- `PCHK w` (R105): `w` is taken in logical order and is not reordered. -/
def execPchk (w : Word) (s : State) : Result := answer ((pcheck w).setWidth 32) s

end Sys2Proof.Machine
end

