-- ==== Sys2Proof/Machine/Extract.lean ====
section
/-! DEFINITION. Extraction, packing, output length and trim (spec/43_extract_pack_trim.md) and the command `XTR`. -/

namespace Sys2Proof.Machine

/-- The six parity indexes of a codeword (R125). -/
def parityIndexes : List Nat := [0, 16, 24, 28, 30, 31]

/-- The 26 data indexes, in increasing order (R125). -/
def dataIndexes : List Nat :=
  [1, 2, 3, 4, 5, 6, 7, 8, 9, 10, 11, 12, 13, 14, 15, 17, 18, 19, 20, 21, 22, 23, 25, 26, 27, 29]

/-- `extract26(w) = w[30:16] ‖ w[14:8] ‖ w[6:4] ‖ w[2]` (R126). -/
def extract26 (w : Word) : Data :=
  w.extractLsb' 16 15 ++ w.extractLsb' 8 7 ++ w.extractLsb' 4 3 ++ w.extractLsb' 2 1

/-- `XTR w` (R127): no check, no correction. -/
def execXtr (w : Word) (s : State) : Result := answer ((extract26 w).setWidth 32) s

/-- `outlen(size) = (size * 13) div 16` (R129). -/
def outLen (size : Nat) : Nat := size * 13 / 16

/-! ### The packer (R131) -/

/-- `tot`: the bits at hand once a data field has come in. -/
def packTotal (b : Block) : Nat := b.rcnt.toNat + 26

/-- `nb`: the whole bytes a data field completes. -/
def packCount (b : Block) : Nat := packTotal b / 8

/-- `T = (RES << 26) OR d`: the bits at hand, the oldest most significant. -/
def packBits (b : Block) (d : Data) : BitVec 40 := (b.res.setWidth 40 <<< 26) ||| d.setWidth 40

/-- Byte `k` of `T`: `T[tot-1-8k : tot-8-8k]`. -/
def packByte (b : Block) (d : Data) (k : Nat) : Byte :=
  (packBits b d >>> (packTotal b - 8 - 8 * k)).setWidth 8

/-- The bytes that `append(d)` writes, in address order. -/
def packBytes (b : Block) (d : Data) : List Byte := (List.range (packCount b)).map (packByte b d)

/-- The address of the first byte that `append` writes: `OCNT`. -/
def packAddress (b : Block) : Nat := b.ocnt.toNat

/-- `RCNT' = tot mod 8`. -/
def packRest (b : Block) : Nat := packTotal b % 8

/-- `RES' = T[RCNT'-1 : 0]`: the low `RCNT'` bits of `T` (log 7 says what happens to a rest of 7 bits). -/
def packResidue (b : Block) (d : Data) : BitVec 6 := BitVec.ofNat 6 ((packBits b d).toNat % 2 ^ packRest b)

/-- `append(d)` (R131). -/
def append (d : Data) (b : Block) : Except Fault Block :=
  match storeBytes b (packAddress b) (packBytes b d) with
  | .ok b' =>
    .ok { b' with
      ocnt := BitVec.ofNat 9 (b.ocnt.toNat + packCount b)
      rcnt := BitVec.ofNat 3 (packRest b)
      res := packResidue b d }
  | .error f => .error f

/-! ### The trim (R132, R133) -/

/-- The loop of R132 with `fuel` rounds left: the zero bytes at the end of `B[0 .. n - 1]`. -/
def trailingZeros (byteAt : Nat → Byte) : Nat → Nat → Nat
  | 0, _ => 0
  | _, 0 => 0
  | fuel + 1, n + 1 => if byteAt n = 0#8 then trailingZeros byteAt fuel n + 1 else 0

/-- `trimcount(B, n)` (R132). -/
def trimCount (byteAt : Nat → Byte) (n : Nat) : Nat := trailingZeros byteAt Config.trimMax n

/-- The trim applies exactly when `0 < size < 512` (R133, conflict C5). -/
def trimApplies (size : Nat) : Bool := decide (0 < size) && decide (size < Config.maxBlk)

end Sys2Proof.Machine
end

