-- ==== Sys2Proof/Machine/Secded.lean ====
section
/-! DEFINITION. The SEC-DED decoder (spec/42_secded_decode.md) and the command `DECW`. -/

namespace Sys2Proof.Machine

/-- The weight of a group when its parity is odd, else 0 (R110). -/
def oddWeight (g : Group) (w : Word) : Nat := if hgroup g w then groupWeight g else 0

/-- `syndrome(w)`: the sum of the weights of the groups with odd parity (R110, conflict C2). -/
def syndrome (w : Word) : BitVec 5 :=
  BitVec.ofNat 5 (oddWeight .g1 w + oddWeight .g2 w + oddWeight .g4 w + oddWeight .g8 w + oddWeight .g16 w)

/-- `correct(w, pos)`: index `32 - pos`, that is `w[pos - 1]`, inverted unless `pos = 0` (R112). -/
def correct (w : Word) (pos : BitVec 5) : Word :=
  if pos = 0#5 then w else w ^^^ (1#32 <<< (pos.toNat - 1))

/-- The triple `(pos, w', u)` of R114. -/
structure Decoded where
  pos : BitVec 5
  word : Word
  unc : Bool
  deriving DecidableEq, Repr

/-- `decode_word(w)` (R114): error position, correction, then the overall parity of the corrected word
(R113). A single error at index 0 is rejected (R119, conflict C4). -/
def decodeWord (w : Word) : Decoded :=
  let pos := syndrome w
  let w' := correct w pos
  { pos := pos, word := w', unc := overall w' }

/-- `CW`, `SYN`, `UNC` after a codeword has been decoded (R21 to R23). -/
def Block.withDecoded (b : Block) (d : Decoded) : Block :=
  { b with cw := d.word, syn := d.pos, unc := d.unc }

/-- The data field of `DECW`'s response: 0 when the word is uncorrectable (R117, decision D18). -/
def decodedData (d : Decoded) : Data := if d.unc then 0#26 else extract26 d.word

/-- The response of `DECW` (R117): `u` in bit 31, `pos` in bits 30 to 26, the data below. -/
def decodedResponse (d : Decoded) : Word := flagBit d.unc ++ d.pos ++ decodedData d

/-- `DECW w` (R117): `w` is taken in logical order; only `CW`, `SYN`, `UNC` are written. -/
def execDecw (w : Word) (s : State) : Result :=
  gated s (.next (respond (s.block.withDecoded (decodeWord w)) (decodedResponse (decodeWord w)) s))

end Sys2Proof.Machine
end

