-- ==== Sys2Proof/Machine/Packet.lean ====
section
/-! DEFINITION. The packet commands `BEGIN`, `PUSHW`, `END`, `RDB` (spec/44_packet_ops.md). -/

namespace Sys2Proof.Machine

/-! ### BEGIN -/

/-- `size > 512 or size mod 4 != 0` (R141, R172). -/
def sizeMalformed (size : BitVec 10) : Bool :=
  decide (Config.maxBlk < size.toNat) || decide (size.toNat % 4 ≠ 0)

/-- A fresh packet of `size` bytes: all registers and flags but `FAULTED`, `ERR` and `OBUF` (R141). -/
def openPacket (size : BitVec 10) (b : Block) : Block :=
  { b with
    active := true, done := false, invalid := false
    size := size, wcnt := 0
    ocnt := 0, rcnt := 0, res := 0, olen := 0
    cw := 0, syn := 0, unc := false }

/-- `BEGIN size` (R141). -/
def execBegin (size : BitVec 10) (s : State) : Result :=
  gated s (if sizeMalformed size then .next (raiseFault .malformed s)
    else .next (respondStatus (openPacket size s.block) s))

/-! ### PUSHW -/

/-- No packet is open, or all of its groups have been pushed (R143, R174). -/
def pushOutOfSequence (b : Block) : Bool := !b.active || decide (b.wcnt.toNat = b.groups)

/-- `WCNT <- WCNT + 1` (R25). -/
def countGroup (b : Block) : Block := { b with wcnt := b.wcnt + 1 }

/-- The decoded codeword's part of `PUSHW` (R143): the verdict, or the data into the packer. -/
def takeDecoded (d : Decoded) (b : Block) : Except Fault Block :=
  if d.unc then .ok { b.withDecoded d with invalid := true }
  else append (extract26 d.word) (b.withDecoded d)

/-- What an executed `PUSHW w` does to the block: counted only once the packet is invalid (R144), otherwise
reordered, decoded, extracted and packed (R143). -/
def pushGroup (w : Word) (b : Block) : Except Fault Block :=
  if b.invalid then .ok (countGroup b)
  else takeDecoded (decodeWord (reorder w)) (countGroup b)

/-- `PUSHW w` (R143). -/
def execPushw (w : Word) (s : State) : Result :=
  gated s (if pushOutOfSequence s.block then .next (raiseFault .sequence s)
    else finish (pushGroup w s.block) s)

/-! ### END -/

/-- No packet is open, or a still-valid packet is short of groups (R145, R174). -/
def endOutOfSequence (b : Block) : Bool :=
  !b.active || (!b.invalid && decide (b.wcnt.toNat < b.groups))

/-- The readable length at `END` (R145): 0 for an invalid packet, else `OCNT` less the trim. -/
def closedLength (b : Block) : Except Fault Nat :=
  if b.invalid then .ok 0
  else if trimApplies b.size.toNat then
    if b.ocnt.toNat ≤ Config.maxOut then
      .ok (b.ocnt.toNat - trimCount (Memory.read b.obuf) b.ocnt.toNat)
    else .error (.noSuchByte (b.ocnt.toNat - 1))
  else .ok b.ocnt.toNat

/-- What an executed `END` does to the block: `ACTIVE`, `DONE`, `OLEN` (R145). -/
def closePacket (b : Block) : Except Fault Block :=
  match closedLength b with
  | .ok n => .ok { b with active := false, done := true, olen := BitVec.ofNat 9 n }
  | .error f => .error f

/-- `END` (R145, R149). -/
def execEnd (s : State) : Result :=
  gated s (if endOutOfSequence s.block then .next (raiseFault .sequence s)
    else finish (closePacket s.block) s)

/-! ### RDB -/

/-- `DONE = 0 or INVALID = 1 or index >= OLEN` (R147, R175). -/
def byteNotAvailable (index : BitVec 9) (b : Block) : Bool :=
  !b.closedValid || decide (b.olen.toNat ≤ index.toNat)

/-- `RDB index` (R147). -/
def execRdb (index : BitVec 9) (s : State) : Result :=
  gated s (if byteNotAvailable index s.block then .next (raiseFault .notAvail s)
    else match loadByte s.block index.toNat with
      | .ok v => .next (respond s.block (v.setWidth 32) s)
      | .error f => .fault f)

end Sys2Proof.Machine
end

