-- ==== Sys2Proof/Machine/Payload.lean ====
section
/-! DEFINITION. The pure packet function `decode_payload` (R151), written over the bit sequence `S` of R128, and
the command sequence by which a host has the block compute it (R80 `DECODE`, R194). No command calls it: it is
the reference the command machine realises (R12). -/

namespace Sys2Proof.Machine

/-- The three classifications of a packet (R151). -/
inductive Verdict where
  | malformed
  | invalid
  | valid (bytes : List Byte)
  deriving DecidableEq, Repr

/-- The bits of a data field in order, `d0` first (R128: most significant bit first). -/
def dataBits (d : Data) : List Bool := (List.range 26).map (fun k => d.getLsbD (25 - k))

/-- The wire groups of a payload, in order, each assembled by R51; bytes that fill no group are left over. -/
def wireGroups : List Byte → List Word
  | b0 :: b1 :: b2 :: b3 :: rest => wireGroup b0 b1 b2 b3 :: wireGroups rest
  | _ => []

/-- The bit sequence `S` of the groups, or none at the first uncorrectable one (R128, R151). -/
def payloadBits : List Word → Option (List Bool)
  | [] => some []
  | w :: ws =>
    let d := decodeWord (reorder w)
    if d.unc then none
    else match payloadBits ws with
      | some bits => some (dataBits (extract26 d.word) ++ bits)
      | none => none

/-- The value of a bit sequence, the first bit most significant. -/
def bitsValue (bits : List Bool) : Nat := bits.foldl (fun v b => 2 * v + b.toNat) 0

/-- Byte `a` of a bit sequence: `S[8a] ‖ ... ‖ S[8a + 7]` (R128). -/
def sequenceByte (bits : List Bool) (a : Nat) : Byte := BitVec.ofNat 8 (bitsValue ((bits.drop (8 * a)).take 8))

/-- The first `n` bytes of a bit sequence (R128). -/
def sequenceBytes (bits : List Bool) (n : Nat) : List Byte := (List.range n).map (sequenceByte bits)

/-- The length of the output after the trim (R133). -/
def trimmedLength (size : Nat) (byteAt : Nat → Byte) (n : Nat) : Nat :=
  if trimApplies size then n - trimCount byteAt n else n

/-- `decode_payload(P)` (R151). -/
def decodePayload (p : List Byte) : Verdict :=
  if p.length % 4 ≠ 0 ∨ Config.maxBlk < p.length then .malformed
  else match payloadBits (wireGroups p) with
    | none => .invalid
    | some bits =>
      .valid (sequenceBytes bits (trimmedLength p.length (sequenceByte bits) (outLen p.length)))

/-- `BEGIN size` as a command word, for a size its field can hold (log 12). -/
def beginCommand (size : Nat) : CommandWord := encode (.beginPacket (BitVec.ofNat 10 size))

/-- `DECODE b0, ..., b(n-1)` (R80): `BEGIN n`, one `PUSHW` a group, `END`. -/
def decodeCommands (p : List Byte) : List CommandWord :=
  beginCommand p.length :: ((wireGroups p).map (fun w => encode (.pushw w)) ++ [encode .endPacket])

end Sys2Proof.Machine
end

