-- ==== Sys2Proof/Machine/System.lean ====
section
/-! DEFINITION. The system commands `NOP`, `CLR`, `RDR` (spec/45_system_ops.md) and the three reserved opcodes. -/

namespace Sys2Proof.Machine

/-- `NOP` (R160). -/
def execNop (s : State) : Result := gated s (.next (respondStatus s.block s))

/-- Every register and flag 0, `OBUF` as it was (R161, R37). -/
def clearBlock (b : Block) : Block := { Block.reset with obuf := b.obuf }

/-- `CLR` (R161): executes in the fault state too, and is the only command that leaves it. -/
def execClr (s : State) : Result := .next (respondStatus (clearBlock s.block) s)

/-- `RDR n` (R162): executes in the fault state too; the reserved number raises `ILLEGAL` (refused there). -/
def execRdr (n : BitVec 3) (s : State) : Result :=
  match readRegister n s.block with
  | some v => .next (respond s.block v s)
  | none => .next (raiseFault .illegal s)

/-- Opcode 0x7: `Fault(ILLEGAL)` whatever the operand (R74). -/
def execReserved7 (_x : Word) (s : State) : Result := .next (raiseFault .illegal s)

/-- Opcode 0xE: `Fault(ILLEGAL)` whatever the operand (R74). -/
def execReservedE (_x : Word) (s : State) : Result := .next (raiseFault .illegal s)

/-- Opcode 0xF: `Fault(ILLEGAL)` whatever the operand (R74). -/
def execReservedF (_x : Word) (s : State) : Result := .next (raiseFault .illegal s)

end Sys2Proof.Machine
end

