-- ==== Sys2Proof/Machine/Dispatch.lean ====
section
/-! DEFINITION. The dispatch: one arm per command, each one call of its meaning. -/

namespace Sys2Proof.Machine

def exec (i : Instr) (s : State) : Host.Outcome State Fault Refusal :=
  match i with
  | .nop => Sys2Proof.Machine.execNop s
  | .clr => Sys2Proof.Machine.execClr s
  | .beginPacket size => Sys2Proof.Machine.execBegin size s
  | .pushw w => Sys2Proof.Machine.execPushw w s
  | .endPacket => Sys2Proof.Machine.execEnd s
  | .rdb index => Sys2Proof.Machine.execRdb index s
  | .rdr n => Sys2Proof.Machine.execRdr n s
  | .bswap w => Sys2Proof.Machine.execBswap w s
  | .brev8 w => Sys2Proof.Machine.execBrev8 w s
  | .reord w => Sys2Proof.Machine.execReord w s
  | .pchk w => Sys2Proof.Machine.execPchk w s
  | .decw w => Sys2Proof.Machine.execDecw w s
  | .xtr w => Sys2Proof.Machine.execXtr w s
  | .reserved7 x => Sys2Proof.Machine.execReserved7 x s
  | .reservedE x => Sys2Proof.Machine.execReservedE x s
  | .reservedF x => Sys2Proof.Machine.execReservedF x s

end Sys2Proof.Machine
end

