-- ==== Sys2Proof/Machine/Step.lean ====
section
/-! DEFINITION. One step: the host's next action, taken whole (R9, R55, R190). -/

namespace Sys2Proof.Machine

/-- The machine takes one command word (R81): the decoded command's meaning, or `ILLEGAL` for a word that is
no command. -/
def runCommand (c : CommandWord) (s : State) : Host.Outcome State Fault Refusal :=
  match decode c with
  | .ok i => exec i s
  | .error _ => .next (rejectWord s)

/-- One step of the machine: the host's next action, or nothing while the host does nothing (log 2). -/
def step (s : State) : Host.Outcome State Fault Refusal :=
  match takeAction s with
  | none => .next (idle s)
  | some (.hardwareReset, s') => .next (hardwareReset s')
  | some (.command c, s') => runCommand c s'

/-- `s` with the command word of the table number `w` as the host's next action: the very next step runs it
(log 2, log 10). A number that is no 36-bit word cannot be issued and changes nothing. -/
def State.withFetchWord (s : State) (nbits w : Nat) : State :=
  match tableCommandWord nbits w with
  | some c => issue c s
  | none => s

end Sys2Proof.Machine
end

