-- ==== Sys2Proof/Safety.lean ====
section
/-! DEFINITION. The terms claims are stated in: the invariants of R38, the observable part of a state, the
packet-level condition of a state, and a run of commands. -/

namespace Sys2Proof.Machine

/-- The invariants of R38, clause by clause, with the form of the output buffer (R32, R50). -/
structure Block.Consistent (b : Block) : Prop where
  /-- (a) -/
  notBoth : ¬(b.active = true ∧ b.done = true)
  /-- (b) -/
  sizeAligned : b.size.toNat % 4 = 0
  /-- (b) -/
  sizeBound : b.size.toNat ≤ 512
  /-- (c) -/
  countBound : b.wcnt.toNat ≤ b.groups
  /-- (d) -/
  noFaultNoCode : b.faulted = false → b.err = 0#3
  /-- (d) -/
  faultHasCode : b.faulted = true → 1 ≤ b.err.toNat ∧ b.err.toNat ≤ 4
  /-- (e) -/
  restEven : b.rcnt.toNat = 0 ∨ b.rcnt.toNat = 2 ∨ b.rcnt.toNat = 4 ∨ b.rcnt.toNat = 6
  /-- (e) -/
  residueBound : b.res.toNat < 2 ^ b.rcnt.toNat
  /-- (f) -/
  packerInStep : b.active = true → b.invalid = false →
    b.ocnt.toNat = 26 * b.wcnt.toNat / 8 ∧ b.rcnt.toNat = 26 * b.wcnt.toNat % 8
  /-- (g) -/
  readableWritten : b.olen.toNat ≤ b.ocnt.toNat
  /-- (g) -/
  writtenBound : b.ocnt.toNat ≤ 416
  /-- (h) -/
  closedComplete : b.done = true → b.invalid = false →
    b.wcnt.toNat = b.groups ∧ b.ocnt.toNat = 13 * b.size.toNat / 16 ∧ b.ocnt.toNat ≤ b.olen.toNat + 4
  /-- (h) -/
  closedUntrimmed : b.done = true → b.invalid = false → (b.size.toNat = 0 ∨ b.size.toNat = 512) →
    b.olen = b.ocnt
  /-- (i) -/
  invalidUnreadable : b.invalid = true → b.done = true → b.olen = 0#9
  /-- (j), the part about the registers -/
  idleCleared : b.active = false → b.done = false →
    b.invalid = false ∧ b.size = 0#10 ∧ b.wcnt = 0#8 ∧ b.ocnt = 0#9 ∧ b.rcnt = 0#3 ∧ b.res = 0#6 ∧ b.olen = 0#9
  /-- the canonical form of `OBUF` -/
  bufferCanonical : Memory.wf b.obuf = true
  /-- every listed byte of `OBUF` exists (R50) -/
  bufferInRange : Memory.inRange b.obuf = true

/-- The state of the machine is consistent when its block is: the port is free (R198). -/
def State.Consistent (s : State) : Prop := s.block.Consistent

/-- The registers of the block without the output buffer. -/
def Block.registers (b : Block) : Block := { b with obuf := [] }

/-- Two blocks that no command can tell apart (R32): equal registers, and equal bytes below `OCNT`, the
bytes written for the present packet. -/
def Block.Alike (b c : Block) : Prop :=
  b.registers = c.registers ∧ ∀ a < b.ocnt.toNat, Memory.read b.obuf a = Memory.read c.obuf a

/-- Two machines that no host can tell apart. -/
def State.Alike (s t : State) : Prop :=
  s.block.Alike t.block ∧ s.response = t.response ∧ s.host = t.host

/-- The part of the block that belongs to the packet (R150): everything but `CW`, `SYN`, `UNC` and the fault
record. -/
def Block.packetPart (b : Block) : Block :=
  { b with cw := 0, syn := 0, unc := false, faulted := false, err := 0 }

/-- No packet is open or closed (R140). -/
def Block.idle (b : Block) : Bool := !b.active && !b.done

/-- Group `g` covers index `i` exactly when `i` is in 1 to 31 and `((32 - i) AND c) != 0` (R100). -/
def covers (g : Group) (i : Nat) : Bool := decide (1 ≤ i) && decide (i ≤ 31) && (hammingPos i &&& groupWeight g != 0)

/-- The number of 1 bits of a word. -/
def bitWeight (w : Word) : Nat := ((List.range 32).filter (fun n => w.getLsbD n)).length

/-- The value of a byte sequence, the first byte most significant (R52). -/
def bytesValue (bs : List Byte) : Nat := bs.foldl (fun v b => 256 * v + b.toNat) 0

/-- `n` bytes of `OBUF` from address `a` on. -/
def bytesFrom (m : Memory) (a n : Nat) : List Byte := (List.range n).map (fun k => Memory.read m (a + k))

/-- `UNC` is the overall parity of `CW` (R23), whose five group parities are even (R112). -/
def Block.decodedSettled (b : Block) : Bool := b.unc == overall b.cw && syndrome b.cw == 0#5

/-- The packet commands (R73: opcodes 2 to 5). -/
def isPacketCommand : Instr → Bool
  | .beginPacket _ | .pushw _ | .endPacket | .rdb _ => true
  | .nop | .clr | .rdr _ | .bswap _ | .brev8 _ | .reord _ | .pchk _ | .decw _ | .xtr _ => false
  | .reserved7 _ | .reservedE _ | .reservedF _ => false

/-- The unit commands, `NOP` and `RDR`: what may be issued at any point of a packet (R150). -/
def isBystander : Instr → Bool
  | .bswap _ | .brev8 _ | .reord _ | .pchk _ | .decw _ | .xtr _ | .nop | .rdr _ => true
  | .clr | .beginPacket _ | .pushw _ | .endPacket | .rdb _ => false
  | .reserved7 _ | .reservedE _ | .reservedF _ => false

/-- The host issues the commands `cs`, each after the response to the one before (R198). -/
def runCommands : List CommandWord → State → Result
  | [], s => .next s
  | c :: cs, s =>
    match step (issue c s) with
    | .next t => runCommands cs t
    | .fault f => .fault f
    | .refused r => .refused r

end Sys2Proof.Machine
end

