-- ==== Sys2Proof/Certificates/Slice0/Obligations.lean ====
section
/-! DEFINITION. The statements for the provers. Each docstring names the rule of spec/ it formalises. -/

open Sys2Proof Sys2Proof.Machine

/-! ### Encoding and decoding (spec/30_encoding.md) -/

/-- R79: the example command words of the spec, one of each command, decode to the command written beside them. -/
def Obligations.ExampleWordsDecode : Prop :=
  decode 0x000000000#36 = .ok .nop ∧ decode 0x100000000#36 = .ok .clr ∧
  decode 0x200000200#36 = .ok (.beginPacket 512#10) ∧ decode 0x3A0000000#36 = .ok (.pushw 0xA0000000#32) ∧
  decode 0x400000000#36 = .ok .endPacket ∧ decode 0x50000019F#36 = .ok (.rdb 415#9) ∧
  decode 0x600000006#36 = .ok (.rdr 6#3) ∧ decode 0x811223344#36 = .ok (.bswap 0x11223344#32) ∧
  decode 0x901020408#36 = .ok (.brev8 0x01020408#32) ∧ decode 0xA00000001#36 = .ok (.reord 0x00000001#32) ∧
  decode 0xB00000003#36 = .ok (.pchk 0x00000003#32) ∧ decode 0xC00000003#36 = .ok (.decw 0x00000003#32) ∧
  decode 0xDFFFFFFFF#36 = .ok (.xtr 0xFFFFFFFF#32)

/-- R70 to R73: decoding the word of a command gives the command back, with every operand at every value its
field admits. -/
def Obligations.DecodeOfEncodeIsTheCommand : Prop :=
  ∀ i : Instr, decode (encode i) = .ok i

/-- R70 to R73, R76: a word that decodes is the word of what it decodes to, so no bit of it is ignored. -/
def Obligations.EncodeOfDecodeIsTheWord : Prop :=
  ∀ (c : CommandWord) (i : Instr), decode c = .ok i → encode i = c

/-- R82: a word selects a row of the opcode table exactly when it decodes to a command of that row, and no row
exactly when it decodes to none. -/
def Obligations.DecoderAgreesWithTheTable : Prop :=
  ∀ c : CommandWord,
    (∀ i : Instr, selectsRow c i = true ↔ ∃ j, decode c = .ok j ∧ opcode j = opcode i) ∧
    ((∃ e, decode c = .error e) ↔ ∀ i : Instr, selectsRow c i = false)

/-- R75: a command word with a nonzero reserved operand bit raises `Fault(ILLEGAL)`, and so does `RDR` with
`n = 7`; a value that is inside its field but out of range is no encoding error: `BEGIN` raises
`Fault(MALFORMED)`, `RDB` raises `Fault(NOTAVAIL)`. Without a standing fault: R178 has its own statement. -/
def Obligations.ReservedBitsRaiseIllegal : Prop :=
  ∀ (s : State) (op : BitVec 4) (arg : Word), s.block.faulted = false →
    (((op = 0x0#4 ∨ op = 0x1#4 ∨ op = 0x4#4) ∧ arg ≠ 0#32) ∨
      (op = 0x2#4 ∧ arg.extractLsb' 10 22 ≠ 0#22) ∨
      (op = 0x5#4 ∧ arg.extractLsb' 9 23 ≠ 0#23) ∨
      (op = 0x6#4 ∧ (arg.extractLsb' 3 29 ≠ 0#29 ∨ arg.extractLsb' 0 3 = 7#3)) →
      step (issue (op ++ arg) s) = .next (faultEntry .illegal s)) ∧
    (op = 0x2#4 → arg.extractLsb' 10 22 = 0#22 → (512 < arg.toNat ∨ arg.toNat % 4 ≠ 0) →
      step (issue (op ++ arg) s) = .next (faultEntry .malformed s)) ∧
    (op = 0x5#4 → arg.extractLsb' 9 23 = 0#23 → s.block.olen.toNat ≤ arg.toNat →
      step (issue (op ++ arg) s) = .next (faultEntry .notAvail s))

/-- R74: a command with a reserved opcode raises `Fault(ILLEGAL)` whatever its operand; it is no hint and no
no-op, for `ERR` and `FAULTED` change. -/
def Obligations.ReservedOpcodesRaiseIllegal : Prop :=
  ∀ (s : State) (x : Word), s.block.faulted = false →
    exec (.reserved7 x) s = .next (faultEntry .illegal s) ∧
    exec (.reservedE x) s = .next (faultEntry .illegal s) ∧
    exec (.reservedF x) s = .next (faultEntry .illegal s) ∧
    ∀ op : BitVec 4, (op = 0x7#4 ∨ op = 0xE#4 ∨ op = 0xF#4) →
      step (issue (op ++ x) s) = .next (faultEntry .illegal s)

/-- R51: the operand of `PUSHW` for a wire group has the byte received first in its most significant byte, and
bit `k` (from the most significant bit) of byte `j` is `bit(arg, 8j + k)`; group `g` of a payload is made of the bytes
at the offsets `4g` to `4g + 3`, in the order received. -/
def Obligations.WireGroupsAssembleBigEndian : Prop :=
  (∀ (p : List Byte) (g : Nat), 4 * g + 3 < p.length →
    (wireGroups p)[g]? = some (wireGroup (p.getD (4 * g) 0) (p.getD (4 * g + 1) 0) (p.getD (4 * g + 2) 0)
      (p.getD (4 * g + 3) 0))) ∧
  ∀ b0 b1 b2 b3 : Byte,
    (wireGroup b0 b1 b2 b3).extractLsb' 24 8 = b0 ∧ (wireGroup b0 b1 b2 b3).extractLsb' 16 8 = b1 ∧
    (wireGroup b0 b1 b2 b3).extractLsb' 8 8 = b2 ∧ (wireGroup b0 b1 b2 b3).extractLsb' 0 8 = b3 ∧
    ∀ k < 8, bitAt (wireGroup b0 b1 b2 b3) k = b0.getLsbD (7 - k) ∧
      bitAt (wireGroup b0 b1 b2 b3) (8 + k) = b1.getLsbD (7 - k) ∧
      bitAt (wireGroup b0 b1 b2 b3) (16 + k) = b2.getLsbD (7 - k) ∧
      bitAt (wireGroup b0 b1 b2 b3) (24 + k) = b3.getLsbD (7 - k)

/-! ### The step (R9, R55, R81) -/

/-- R81 (6): when the host's next action is a command word that decodes, the step is that command's meaning; the
action is taken from the host's list and nothing else is done around it (the list is the model's own, log 1). -/
def Obligations.StepRunsTheDecodedCommand : Prop :=
  ∀ (s : State) (c : CommandWord) (rest : List HostAction) (i : Instr),
    s.host = .command c :: rest → decode c = .ok i → step s = exec i { s with host := rest }

/-- R78: every command word issued is answered: the step answers a next state with one response. The last two
clauses are about the model's own fields, not about R78: the action is gone from the host's list and nothing else of
it changes (log 1, DESIGN CHOICE), and the counter of hardware resets stays (log 5, DESIGN CHOICE). Consistency (R38)
rules out states no run reaches. -/
def Obligations.EveryCommandResponds : Prop :=
  ∀ (s : State) (c : CommandWord), s.Consistent →
    ∃ t r, step (issue c s) = .next t ∧ t.response = some r ∧ t.host = s.host ∧ t.resets = s.resets

/-! ### Reset, `CLR` (spec/10_state.md §7, spec/70_reset_and_hazards.md §1) -/

/-- R37: right after reset every register and flag is 0, and `STATUS` and `PACK` read `0x00000000`. -/
def Obligations.ResetLeavesEveryRegisterZero : Prop :=
  State.reset.block.cw = 0#32 ∧ State.reset.block.syn = 0#5 ∧ State.reset.block.unc = false ∧
  State.reset.block.active = false ∧ State.reset.block.done = false ∧ State.reset.block.invalid = false ∧
  State.reset.block.size = 0#10 ∧ State.reset.block.wcnt = 0#8 ∧ State.reset.block.ocnt = 0#9 ∧
  State.reset.block.rcnt = 0#3 ∧ State.reset.block.res = 0#6 ∧ State.reset.block.olen = 0#9 ∧
  State.reset.block.faulted = false ∧ State.reset.block.err = 0#3 ∧
  statusWord State.reset.block = 0x00000000#32 ∧ packWord State.reset.block = 0x00000000#32

/-- R161, R37: `CLR`, in every state, the fault state among them, makes every register and flag 0, leaves every
byte of `OBUF` as it was, and responds `0x00000000` with `err = 0`. -/
def Obligations.ClrZeroesAllButTheBuffer : Prop :=
  ∀ s : State, exec .clr s = .next { s with
    block := { cw := 0, syn := 0, unc := false, active := false, done := false, invalid := false, size := 0,
               wcnt := 0, ocnt := 0, rcnt := 0, res := 0, olen := 0, obuf := s.block.obuf, faulted := false, err := 0 }
    response := some { rsp := 0x00000000#32, err := false } }

/-- R192, R190: `CLR` and a hardware reset leave the same registers, those of the reset state; `CLR` leaves `OBUF`
as it was. -/
def Obligations.HardwareResetAndClrAgree : Prop :=
  ∀ (s : State) (rest : List HostAction), ∃ t u,
    step { s with host := .hardwareReset :: rest } = .next t ∧ exec .clr s = .next u ∧
    t.block.registers = State.reset.block.registers ∧ u.block.registers = State.reset.block.registers ∧
    u.block.obuf = s.block.obuf ∧ (∃ r, u.response = some r) ∧ t.host = rest

/-! ### The readable registers (spec/10_state.md §6) -/

/-- R34: the layout of `STATUS`, as fields and as the formula. -/
def Obligations.StatusWordLayout : Prop :=
  ∀ b : Block,
    (statusWord b).getLsbD 0 = b.active ∧ (statusWord b).getLsbD 1 = b.done ∧
    (statusWord b).getLsbD 2 = b.invalid ∧ (statusWord b).getLsbD 3 = b.faulted ∧
    (statusWord b).extractLsb' 4 3 = b.err ∧ (statusWord b).getLsbD 7 = b.unc ∧
    (statusWord b).extractLsb' 8 5 = b.syn ∧ (statusWord b).extractLsb' 13 19 = 0#19 ∧
    (statusWord b).toNat = b.active.toNat + 2 * b.done.toNat + 4 * b.invalid.toNat + 8 * b.faulted.toNat +
      16 * b.err.toNat + 128 * b.unc.toNat + 256 * b.syn.toNat

/-- R35: the layout of `PACK`. -/
def Obligations.PackWordLayout : Prop :=
  ∀ b : Block,
    (packWord b).extractLsb' 0 9 = b.ocnt ∧ (packWord b).extractLsb' 9 7 = 0#7 ∧
    (packWord b).extractLsb' 16 3 = b.rcnt ∧ (packWord b).extractLsb' 19 5 = 0#5 ∧
    (packWord b).extractLsb' 24 6 = b.res ∧ (packWord b).extractLsb' 30 2 = 0#2

/-- R33, R162, R36: `RDR n` with `n` in 0 to 6 answers register `n`, in every state, the fault state among them,
and changes nothing but the response. -/
def Obligations.RdrAnswersTheRegister : Prop :=
  ∀ (s : State) (n : BitVec 3), n ≠ 7#3 →
    ∃ v : Word, exec (.rdr n) s = .next { s with response := some { rsp := v, err := false } } ∧
      (n = 0#3 → v = statusWord s.block) ∧ (n = 1#3 → v = s.block.cw) ∧
      (n = 2#3 → v.toNat = s.block.size.toNat) ∧ (n = 3#3 → v.toNat = s.block.wcnt.toNat) ∧
      (n = 4#3 → v.toNat = s.block.olen.toNat) ∧ (n = 5#3 → v = packWord s.block) ∧ (n = 6#3 → v = 0x5ECDED32#32)

/-- R78, first row, and R176: the response of `NOP`, `CLR`, `BEGIN`, `PUSHW` and `END`, executed or not, is
`STATUS` as it stands after the command. -/
def Obligations.StatusCommandsAnswerStatusAfter : Prop :=
  ∀ (s t : State) (i : Instr),
    (i = .nop ∨ i = .clr ∨ (∃ size, i = .beginPacket size) ∨ (∃ w, i = .pushw w) ∨ i = .endPacket) →
    exec i s = .next t → ∃ e, t.response = some { rsp := statusWord t.block, err := e }

/-- R160: `NOP` answers `STATUS` and changes nothing but the response. -/
def Obligations.NopAnswersStatus : Prop :=
  ∀ s : State, s.block.faulted = false →
    exec .nop s = .next { s with response := some { rsp := statusWord s.block, err := false } }

/-! ### Faults (spec/60_exceptions.md) -/

/-- R176: with no fault standing, a command that answers with `err = 1` has written `FAULTED <- 1` and
`ERR <-` one of the codes 1 to 4 of R171 and nothing else, and its response is the new `STATUS`. -/
def Obligations.FaultEntryWritesOnlyTheFaultRecord : Prop :=
  ∀ (s t : State) (i : Instr) (v : Word), s.block.faulted = false → exec i s = .next t →
    t.response = some { rsp := v, err := true } →
    ∃ code : BitVec 3, 1 ≤ code.toNat ∧ code.toNat ≤ 4 ∧
      t = { s with
        block := { s.block with faulted := true, err := code }
        response := some { rsp := statusWord t.block, err := true } }

/-- R171: each cause has its code, and a raised fault puts it into `ERR`. -/
def Obligations.RaisedFaultsRecordTheirCode : Prop :=
  ∀ s : State, s.block.faulted = false →
    (raiseFault .malformed s).block = { s.block with faulted := true, err := 1#3 } ∧
    (raiseFault .illegal s).block = { s.block with faulted := true, err := 2#3 } ∧
    (raiseFault .sequence s).block = { s.block with faulted := true, err := 3#3 } ∧
    (raiseFault .notAvail s).block = { s.block with faulted := true, err := 4#3 }

/-- R178: while `FAULTED = 1` every command but a well-formed `CLR` and a well-formed `RDR n` with `n` in 0 to 6 is
refused: no state change, `rsp = STATUS`, `err = 1`; a word that is no command is refused too. -/
def Obligations.FaultStateRefusesAllButClrAndRdr : Prop :=
  ∀ (s : State) (c : CommandWord), s.block.faulted = true →
    decode c ≠ .ok .clr → (∀ n : BitVec 3, n ≠ 7#3 → decode c ≠ .ok (.rdr n)) →
    step (issue c s) = .next { s with response := some { rsp := statusWord s.block, err := true } }

/-- R179: only `CLR` and hardware reset change anything in the fault state, and both clear the fault record and the
whole packet state with it. -/
def Obligations.OnlyClrAndResetLeaveTheFaultState : Prop :=
  (∀ s t : State, s.block.faulted = true → step s = .next t →
    t.block = s.block ∨
    (∃ rest, s.host = .hardwareReset :: rest) ∨
    ∃ c rest, s.host = .command c :: rest ∧ decode c = .ok .clr) ∧
  ∀ s : State,
    ((∃ rest, s.host = .hardwareReset :: rest) ∨
      ∃ c rest, s.host = .command c :: rest ∧ decode c = .ok .clr) →
    ∃ t, step s = .next t ∧ t.block.registers = State.reset.block.registers ∧ t.block.faulted = false ∧
      t.block.err = 0#3

/-- R173, R81: a decoded command that is not well formed raises `ILLEGAL` before any other check, and a well-formed
one never raises it. -/
def Obligations.IllFormedCommandsAndOnlyThoseRaiseIllegal : Prop :=
  ∀ (s : State) (i : Instr), s.block.faulted = false →
    (i.wf = false → exec i s = .next (faultEntry .illegal s)) ∧
    (i.wf = true → exec i s ≠ .next (faultEntry .illegal s))

/-! ### The reordering unit (spec/40_transform.md) -/

/-- R91, R94: `BSWAP w` answers the 4-byte mirror: output byte `j` is input byte `3 - j`; no state is written. -/
def Obligations.BswapAnswersTheMirror : Prop :=
  ∀ (s : State) (w : Word), s.block.faulted = false →
    ∃ v : Word, exec (.bswap w) s = .next { s with response := some { rsp := v, err := false } } ∧
      ∀ j < 4, v.extractLsb' (8 * j) 8 = w.extractLsb' (8 * (3 - j)) 8

/-- R92, R95: `BREV8 w` answers `w` with the bits of each byte reversed, the bytes where they are. -/
def Obligations.Brev8ReversesEachByte : Prop :=
  ∀ (s : State) (w : Word), s.block.faulted = false →
    ∃ v : Word, exec (.brev8 w) s = .next { s with response := some { rsp := v, err := false } } ∧
      ∀ j < 4, ∀ k < 8, v.getLsbD (8 * j + k) = w.getLsbD (8 * j + (7 - k))

/-- R93, R96: `REORD w` answers the reversal of all 32 bits, in both numberings; no state is written. -/
def Obligations.ReordReversesAllBits : Prop :=
  ∀ (s : State) (w : Word), s.block.faulted = false →
    ∃ v : Word, exec (.reord w) s = .next { s with response := some { rsp := v, err := false } } ∧
      (∀ n < 32, v.getLsbD n = w.getLsbD (31 - n)) ∧ ∀ i < 32, bitAt v i = bitAt w (31 - i)

/-- R90 to R93: the functions of the reordering unit bit by bit and byte by byte; each is an involution, the two
steps of `reorder` commute, and `reorder` is the reversal of all 32 bits. -/
def Obligations.TransformsAreCommutingInvolutions : Prop :=
  (∀ b : Byte, rev8 (rev8 b) = b ∧ ∀ k < 8, (rev8 b).getLsbD k = b.getLsbD (7 - k)) ∧
  (∀ w : Word, bswap32 (bswap32 w) = w ∧ bswap32 w = byte3 w ++ byte2 w ++ byte1 w ++ byte0 w ∧
    ∀ j < 4, (bswap32 w).extractLsb' (8 * j) 8 = w.extractLsb' (8 * (3 - j)) 8) ∧
  (∀ w : Word, brev8x4 (brev8x4 w) = w ∧
    brev8x4 w = rev8 (byte0 w) ++ rev8 (byte1 w) ++ rev8 (byte2 w) ++ rev8 (byte3 w) ∧
    ∀ j < 4, (brev8x4 w).extractLsb' (8 * j) 8 = rev8 (w.extractLsb' (8 * j) 8)) ∧
  ∀ w : Word, reorder (reorder w) = w ∧ reorder w = brev8x4 (bswap32 w) ∧
    brev8x4 (bswap32 w) = bswap32 (brev8x4 w) ∧
    (∀ i < 32, bitAt (reorder w) i = bitAt w (31 - i)) ∧ ∀ n < 32, (reorder w).getLsbD n = w.getLsbD (31 - n)

/-! ### The parity-check matrix (spec/41_parity_check.md) -/

/-- R100 to R105: `PCHK w` answers the six parities of `w`: bit `k` for the group of weight `2^k` is the XOR over
the indexes that R100 puts into the group, bit 5 the XOR of all 32 bits, the rest 0; no state is written. -/
def Obligations.PchkAnswersTheSixParities : Prop :=
  ∀ (s : State) (w : Word), s.block.faulted = false →
    ∃ v : Word, exec (.pchk w) s = .next { s with response := some { rsp := v, err := false } } ∧
      v.getLsbD 0 = xorBelow (fun i => covers .g1 i && bitAt w i) 32 ∧
      v.getLsbD 1 = xorBelow (fun i => covers .g2 i && bitAt w i) 32 ∧
      v.getLsbD 2 = xorBelow (fun i => covers .g4 i && bitAt w i) 32 ∧
      v.getLsbD 3 = xorBelow (fun i => covers .g8 i && bitAt w i) 32 ∧
      v.getLsbD 4 = xorBelow (fun i => covers .g16 i && bitAt w i) 32 ∧
      v.getLsbD 5 = xorBelow (fun i => bitAt w i) 32 ∧
      v.extractLsb' 6 26 = 0#26

/-- R104: `pcheck` is the product `H . w`: its bits are the group parities and the overall parity, it is linear, and
the word with a single 1 at index `i` gives `32 + hp(i)`, at index 0 gives 32. -/
def Obligations.PcheckIsLinear : Prop :=
  (∀ w : Word, (pcheck w).getLsbD 0 = hgroup .g1 w ∧ (pcheck w).getLsbD 1 = hgroup .g2 w ∧
    (pcheck w).getLsbD 2 = hgroup .g4 w ∧ (pcheck w).getLsbD 3 = hgroup .g8 w ∧
    (pcheck w).getLsbD 4 = hgroup .g16 w ∧ (pcheck w).getLsbD 5 = overall w) ∧
  (∀ a b : Word, pcheck (a ^^^ b) = pcheck a ^^^ pcheck b) ∧ pcheck 0#32 = 0#6 ∧
  (∀ i, 1 ≤ i → i < 32 → (pcheck (bitMask i)).toNat = 32 + hammingPos i) ∧ (pcheck (bitMask 0)).toNat = 32

/-- R106: for each value of the 26 data bits there is exactly one codeword. -/
def Obligations.OneCodewordForEachData : Prop :=
  ∀ d : Data, ∃ w : Word, (isCodeword w = true ∧ extract26 w = d) ∧
    ∀ v : Word, isCodeword v = true → extract26 v = d → v = w

/-- R106: any two distinct codewords differ in at least 4 bits. -/
def Obligations.DistinctCodewordsDifferInFourBits : Prop :=
  ∀ a b : Word, isCodeword a = true → isCodeword b = true → a ≠ b → 4 ≤ bitWeight (a ^^^ b)

/-! ### The SEC-DED decoder (spec/42_secded_decode.md) -/

/-- R111: one flipped bit of a codeword, at index `i >= 1`, gives the position `32 - i`, at index 0 gives 0; the groups
that become odd are exactly those R100 puts the index into; and a position `pos` in 1 to 31 names index `32 - pos`,
which is bit `w[pos - 1]`. -/
def Obligations.SyndromeNamesTheFlippedBit : Prop :=
  (∀ v : Word, isCodeword v = true → ∀ i, 1 ≤ i → i < 32 → (syndrome (v ^^^ bitMask i)).toNat = 32 - i) ∧
  (∀ v : Word, isCodeword v = true → ∀ i < 32, ∀ g : Group, hgroup g (v ^^^ bitMask i) = covers g i) ∧
  (∀ v : Word, isCodeword v = true → syndrome (v ^^^ bitMask 0) = 0#5) ∧
  ∀ (w : Word) (pos : Nat), 1 ≤ pos → pos < 32 → bitAt w (32 - pos) = w.getLsbD (pos - 1)

/-- R112: `correct` inverts index `32 - pos` and nothing else, nothing at all when `pos = 0`, never index 0, and
after it all five group parities are even. The decoder applies it whatever the overall parity is. -/
def Obligations.CorrectionFlipsOneBitAndCleansTheGroups : Prop :=
  (∀ w : Word, correct w 0#5 = w) ∧
  (∀ (w : Word) (pos : BitVec 5), pos ≠ 0#5 →
    correct w pos = w ^^^ (1#32 <<< (pos.toNat - 1)) ∧
    ∀ i < 32, bitAt (correct w pos) i = (bitAt w i ^^ decide (i = 32 - pos.toNat))) ∧
  (∀ (w : Word) (pos : BitVec 5), bitAt (correct w pos) 0 = bitAt w 0) ∧
  ∀ w : Word, (decodeWord w).word = correct w (syndrome w) ∧ syndrome (correct w (syndrome w)) = 0#5

/-- R113: the uncorrectable bit is the overall parity after the correction, and equals the overall parity before it
inverted exactly when the position is not 0. -/
def Obligations.RejectionIsParityAfterCorrection : Prop :=
  ∀ w : Word, (decodeWord w).unc = overall (decodeWord w).word ∧
    (decodeWord w).unc = overall (correct w (syndrome w)) ∧
    (decodeWord w).unc = (overall w ^^ decide (syndrome w ≠ 0#5))

/-- R115: the four cases of `decode_word`, by the position and the overall parity of the word as received. -/
def Obligations.FourCasesOfDecodeWord : Prop :=
  ∀ w : Word,
    (syndrome w = 0#5 → overall w = false →
      decodeWord w = { pos := 0#5, word := w, unc := false } ∧ isCodeword w = true) ∧
    (syndrome w ≠ 0#5 → overall w = true →
      decodeWord w = { pos := syndrome w, word := w ^^^ bitMask (32 - (syndrome w).toNat), unc := false } ∧
      isCodeword (decodeWord w).word = true) ∧
    (syndrome w ≠ 0#5 → overall w = false →
      decodeWord w = { pos := syndrome w, word := w ^^^ bitMask (32 - (syndrome w).toNat), unc := true }) ∧
    (syndrome w = 0#5 → overall w = true → decodeWord w = { pos := 0#5, word := w, unc := true })

/-- R116 (a) to (d), R119: a codeword is accepted unchanged, a single error at an index from 1 to 31 is corrected, a
single error at index 0 is rejected, and every double error is rejected. Nothing is said of three errors (R116 (e)). -/
def Obligations.SingleErrorsCorrectedDoubleErrorsDetected : Prop :=
  ∀ v : Word, isCodeword v = true →
    decodeWord v = { pos := 0#5, word := v, unc := false } ∧
    (∀ i, 1 ≤ i → i < 32 → decodeWord (v ^^^ bitMask i) = { pos := BitVec.ofNat 5 (32 - i), word := v, unc := false }) ∧
    decodeWord (v ^^^ bitMask 0) = { pos := 0#5, word := v ^^^ bitMask 0, unc := true } ∧
    ∀ i j, i < j → j < 32 → (decodeWord (v ^^^ bitMask i ^^^ bitMask j)).unc = true

/-- R117: `DECW w` writes `CW`, `SYN`, `UNC` and nothing else, and answers the verdict in bit 31, the position in bits
30 to 26, and the data below, 0 when the word is uncorrectable. -/
def Obligations.DecwWritesTheDecodedWord : Prop :=
  ∀ (s : State) (w : Word), s.block.faulted = false →
    ∃ v : Word, exec (.decw w) s = .next { s with
        block := { s.block with
          cw := correct w (syndrome w), syn := syndrome w, unc := overall (correct w (syndrome w)) }
        response := some { rsp := v, err := false } } ∧
      v.getLsbD 31 = overall (correct w (syndrome w)) ∧ v.extractLsb' 26 5 = syndrome w ∧
      (overall (correct w (syndrome w)) = false → v.extractLsb' 0 26 = extract26 (correct w (syndrome w))) ∧
      (overall (correct w (syndrome w)) = true → v.extractLsb' 0 26 = 0#26)

/-! ### Extraction (spec/43_extract_pack_trim.md) -/

/-- R125 to R127: `XTR w` answers the data bits: bit `25 - k` is the bit at the `k`-th data index, bits 31 to 26 are 0;
no state is written. -/
def Obligations.XtrAnswersTheDataBits : Prop :=
  ∀ (s : State) (w : Word), s.block.faulted = false →
    ∃ v : Word, exec (.xtr w) s = .next { s with response := some { rsp := v, err := false } } ∧
      (∀ k < 26, v.getLsbD (25 - k) = bitAt w (dataIndexes.getD k 0)) ∧ v.extractLsb' 26 6 = 0#6

/-- R126: `extract26` is the four slices, bit `25 - k` of it the `k`-th data bit; and it reads no parity bit: two words
that differ only at parity indexes have the same data. -/
def Obligations.ExtractionReadsNoParityBit : Prop :=
  (∀ w : Word,
    extract26 w = w.extractLsb' 16 15 ++ w.extractLsb' 8 7 ++ w.extractLsb' 4 3 ++ w.extractLsb' 2 1 ∧
    ∀ k < 26, (extract26 w).getLsbD (25 - k) = bitAt w (dataIndexes.getD k 0)) ∧
  ∀ v w : Word, (∀ i < 32, i ∉ parityIndexes → bitAt v i = bitAt w i) → extract26 v = extract26 w

/-! ### The packet commands (spec/44_packet_ops.md) -/

/-- R141: `BEGIN size` with a legal size, in every state of the packet, opens a fresh packet: all registers and flags
as written, `OBUF` and the fault record as they were, the response `STATUS` after it. -/
def Obligations.BeginOpensAFreshPacket : Prop :=
  ∀ (s : State) (size : BitVec 10), s.block.faulted = false → size.toNat ≤ 512 → size.toNat % 4 = 0 →
    ∃ t, exec (.beginPacket size) s = .next t ∧
      t = { s with
        block := { cw := 0, syn := 0, unc := false, active := true, done := false, invalid := false, size := size,
                   wcnt := 0, ocnt := 0, rcnt := 0, res := 0, olen := 0, obuf := s.block.obuf,
                   faulted := s.block.faulted, err := s.block.err }
        response := some { rsp := statusWord t.block, err := false } } ∧
      (s.block.err = 0#3 → statusWord t.block = 0x00000001#32)

/-- R172, R141: a size that is not a multiple of 4 or is above 512 raises `Fault(MALFORMED)`; no packet is opened. -/
def Obligations.BeginRefusesAMalformedSize : Prop :=
  ∀ (s : State) (size : BitVec 10), s.block.faulted = false → (512 < size.toNat ∨ size.toNat % 4 ≠ 0) →
    exec (.beginPacket size) s = .next { s with
      block := { s.block with faulted := true, err := 1#3 }
      response := some { rsp := statusWord { s.block with faulted := true, err := 1#3 }, err := true } }

/-- R143, R131: an accepted `PUSHW`: the group is counted, `CW`, `SYN`, `UNC` are those of the reordered word, and the
packer takes its data: the bytes written at `OCNT` and then the new residue, read as one number, are the old
residue followed by the 26 data bits. Every byte outside the written ones and every other register is as before. -/
def Obligations.PushwPacksAnAcceptedCodeword : Prop :=
  ∀ (s : State) (w : Word), s.Consistent → s.block.faulted = false → s.block.active = true →
    s.block.invalid = false → s.block.wcnt.toNat ≠ s.block.size.toNat / 4 → (decodeWord (reorder w)).unc = false →
    ∃ t n, exec (.pushw w) s = .next t ∧ n = (s.block.rcnt.toNat + 26) / 8 ∧
      t = { s with
        block := { s.block with
          cw := (decodeWord (reorder w)).word, syn := (decodeWord (reorder w)).pos, unc := false
          wcnt := t.block.wcnt, ocnt := t.block.ocnt, rcnt := t.block.rcnt, res := t.block.res
          obuf := t.block.obuf }
        response := some { rsp := statusWord t.block, err := false } } ∧
      t.block.wcnt.toNat = s.block.wcnt.toNat + 1 ∧ t.block.ocnt.toNat = s.block.ocnt.toNat + n ∧
      t.block.rcnt.toNat = (s.block.rcnt.toNat + 26) % 8 ∧
      bytesValue (bytesFrom t.block.obuf (packAddress s.block) n) * 2 ^ t.block.rcnt.toNat + t.block.res.toNat =
        s.block.res.toNat * 2 ^ 26 + (extract26 (decodeWord (reorder w)).word).toNat ∧
      ∀ a, (a < packAddress s.block ∨ packAddress s.block + n ≤ a) →
        Memory.read t.block.obuf a = Memory.read s.block.obuf a

/-- R143, R181: a `PUSHW` that decodes an uncorrectable codeword sets `INVALID` and appends nothing; it raises no
fault: `err = 0`. In states that meet R38, `WCNT` is below 128 here and `WCNT + 1` does not wrap (R25); for the states
that break R38 the statement also says what the model does there, a wrap at `WCNT = 255`, which is the model's choice
and no rule of the spec (log 7, DESIGN CHOICE). -/
def Obligations.PushwRecordsAnUncorrectableCodeword : Prop :=
  ∀ (s : State) (w : Word), s.block.faulted = false → s.block.active = true → s.block.invalid = false →
    s.block.wcnt.toNat ≠ s.block.size.toNat / 4 → (decodeWord (reorder w)).unc = true →
    ∃ t, exec (.pushw w) s = .next t ∧
      t = { s with
        block := { s.block with
          cw := (decodeWord (reorder w)).word, syn := (decodeWord (reorder w)).pos, unc := true, invalid := true
          wcnt := s.block.wcnt + 1 }
        response := some { rsp := statusWord t.block, err := false } }

/-- R144: once `INVALID = 1` every further `PUSHW` of the packet is counted and otherwise ignored. In states that meet
R38, `WCNT` is below 128 here and `WCNT + 1` does not wrap (R25); for the states that break R38 the statement also says
what the model does there, a wrap at `WCNT = 255`, which is the model's choice and no rule of the spec (log 7, DESIGN
CHOICE). -/
def Obligations.PushwOfAnInvalidPacketOnlyCounts : Prop :=
  ∀ (s : State) (w : Word), s.block.faulted = false → s.block.active = true → s.block.invalid = true →
    s.block.wcnt.toNat ≠ s.block.size.toNat / 4 →
    ∃ t, exec (.pushw w) s = .next t ∧
      t = { s with
        block := { s.block with wcnt := s.block.wcnt + 1 }
        response := some { rsp := statusWord t.block, err := false } }

/-- R174: `PUSHW` raises `SEQUENCE` with no packet open or with all groups pushed; `END` with no packet open or with a
still-valid packet short of groups. -/
def Obligations.SequenceFaultsOfPushwAndEnd : Prop :=
  ∀ s : State, s.block.faulted = false →
    (∀ w, s.block.active = false ∨ s.block.wcnt.toNat = s.block.size.toNat / 4 →
      exec (.pushw w) s = .next (faultEntry .sequence s)) ∧
    (s.block.active = false ∨ (s.block.invalid = false ∧ s.block.wcnt.toNat < s.block.size.toNat / 4) →
      exec .endPacket s = .next (faultEntry .sequence s))

/-- R145, R132, R133: `END` of a complete valid packet closes it. A short packet loses its trailing zero bytes, at
most 4, stopping at the first byte that is not zero; a full or empty one loses none. Only `ACTIVE`, `DONE`, `OLEN`
and the response are written, and the bytes written are `outlen(SIZE)` (R129). -/
def Obligations.EndClosesACompletePacket : Prop :=
  ∀ s : State, s.Consistent → s.block.faulted = false → s.block.active = true → s.block.invalid = false →
    s.block.wcnt.toNat = s.block.size.toNat / 4 →
    ∃ t, exec .endPacket s = .next t ∧
      t = { s with
        block := { s.block with active := false, done := true, olen := t.block.olen }
        response := some { rsp := statusWord t.block, err := false } } ∧
      s.block.ocnt.toNat = s.block.size.toNat * 13 / 16 ∧
      ((0 < s.block.size.toNat ∧ s.block.size.toNat < 512) →
        ∃ k ≤ 4, t.block.olen.toNat + k = s.block.ocnt.toNat ∧
          (∀ a, t.block.olen.toNat ≤ a → a < s.block.ocnt.toNat → Memory.read s.block.obuf a = 0#8) ∧
          (k = 4 ∨ t.block.olen.toNat = 0 ∨ Memory.read s.block.obuf (t.block.olen.toNat - 1) ≠ 0#8)) ∧
      (¬(0 < s.block.size.toNat ∧ s.block.size.toNat < 512) → t.block.olen = s.block.ocnt)

/-- R149, R145: an invalid packet may be closed early, whatever `WCNT` is; nothing of it is readable. -/
def Obligations.EndClosesAnInvalidPacketEarly : Prop :=
  ∀ s : State, s.block.faulted = false → s.block.active = true → s.block.invalid = true →
    ∃ t, exec .endPacket s = .next t ∧
      t = { s with
        block := { s.block with active := false, done := true, olen := 0 }
        response := some { rsp := statusWord t.block, err := false } }

/-- R142: `BEGIN 0` then `END` gives a closed valid packet with no output; no `PUSHW` is legal in it and no `RDB` after
it. -/
def Obligations.TheEmptyPacketIsValid : Prop :=
  ∀ s : State, s.block.faulted = false →
    ∃ t u, exec (.beginPacket 0#10) s = .next t ∧ exec .endPacket t = .next u ∧
      u.block.done = true ∧ u.block.invalid = false ∧ u.block.olen = 0#9 ∧
      (∀ w, exec (.pushw w) t = .next (faultEntry .sequence t)) ∧
      ∀ index, exec (.rdb index) u = .next (faultEntry .notAvail u)

/-- R147: `RDB index` of a closed valid packet below `OLEN` answers the byte, zero-extended, and writes no state. -/
def Obligations.RdbAnswersAReadableByte : Prop :=
  ∀ (s : State) (index : BitVec 9), s.Consistent → s.block.faulted = false → s.block.done = true →
    s.block.invalid = false → index.toNat < s.block.olen.toNat →
    ∃ v : Word, exec (.rdb index) s = .next { s with response := some { rsp := v, err := false } } ∧
      v.extractLsb' 0 8 = Memory.read s.block.obuf index.toNat ∧ v.extractLsb' 8 24 = 0#24

/-- R175: `RDB` raises `NOTAVAIL` when nothing is closed, when the packet is invalid, or at and beyond `OLEN`. -/
def Obligations.RdbRefusesUnavailableBytes : Prop :=
  ∀ (s : State) (index : BitVec 9), s.block.faulted = false →
    (s.block.done = false ∨ s.block.invalid = true ∨ s.block.olen.toNat ≤ index.toNat) →
    exec (.rdb index) s = .next (faultEntry .notAvail s)

/-- R150: the unit commands, `NOP` and `RDR` leave the packet as it is, and but for `DECW`'s `CW`, `SYN`, `UNC` (and a
fault record) write nothing; and no packet command reads `CW`, `SYN`, `UNC`. -/
def Obligations.BystandersDoNotDisturbThePacket : Prop :=
  (∀ (s t : State) (i : Instr), isBystander i = true → exec i s = .next t →
    t.block.packetPart = s.block.packetPart ∧
    ((∀ w, i ≠ .decw w) → t.response.map Response.err = some false → t.block = s.block)) ∧
  ∀ (s t : State) (i : Instr) (cw : Word) (syn : BitVec 5) (unc : Bool), isPacketCommand i = true →
    exec i s = .next t →
    ∃ u, exec i { s with block := { s.block with cw := cw, syn := syn, unc := unc } } = .next u ∧
      u.block.packetPart = t.block.packetPart ∧ u.block.faulted = t.block.faulted ∧ u.block.err = t.block.err

/-! ### Whole-machine rules -/

/-- R20, last column: each register is written only by the commands its row names. The fault record changes only by
fault entry (an error response) and `CLR`. -/
def Obligations.RegistersAreWrittenOnlyByTheirCommands : Prop :=
  ∀ (s t : State) (i : Instr), exec i s = .next t →
    (t.block.cw ≠ s.block.cw ∨ t.block.syn ≠ s.block.syn ∨ t.block.unc ≠ s.block.unc →
      (∃ w, i = .decw w) ∨ (∃ w, i = .pushw w) ∨ (∃ n, i = .beginPacket n) ∨ i = .clr) ∧
    (t.block.active ≠ s.block.active ∨ t.block.done ≠ s.block.done ∨ t.block.olen ≠ s.block.olen →
      (∃ n, i = .beginPacket n) ∨ i = .endPacket ∨ i = .clr) ∧
    (t.block.invalid ≠ s.block.invalid ∨ t.block.wcnt ≠ s.block.wcnt ∨ t.block.ocnt ≠ s.block.ocnt ∨
        t.block.rcnt ≠ s.block.rcnt ∨ t.block.res ≠ s.block.res →
      (∃ n, i = .beginPacket n) ∨ (∃ w, i = .pushw w) ∨ i = .clr) ∧
    (t.block.size ≠ s.block.size → (∃ n, i = .beginPacket n) ∨ i = .clr) ∧
    (t.block.obuf ≠ s.block.obuf → ∃ w, i = .pushw w) ∧
    (t.block.faulted ≠ s.block.faulted ∨ t.block.err ≠ s.block.err →
      t.response.map Response.err = some true ∨ i = .clr)

/-- R25: `WCNT` is set to 0 by `BEGIN` (and by `CLR` and reset), advanced by exactly 1 by every executed `PUSHW`, and
changed by nothing else; it never wraps and never exceeds 128. -/
def Obligations.WcntCountsThePushedGroups : Prop :=
  ∀ s t : State, s.Consistent → step s = .next t →
    t.block.wcnt.toNat ≤ 128 ∧
    (t.block.wcnt.toNat = s.block.wcnt.toNat ∨ t.block.wcnt.toNat = 0 ∨
      (t.block.wcnt.toNat = s.block.wcnt.toNat + 1 ∧
        ∃ c rest w, s.host = .command c :: rest ∧ decode c = .ok (.pushw w))) ∧
    ∀ c rest w, s.host = .command c :: rest → decode c = .ok (.pushw w) →
      t.response.map Response.err = some false → t.block.wcnt.toNat = s.block.wcnt.toNat + 1

/-- R28: `INVALID` is sticky for the packet: nothing but `BEGIN`, `CLR` and hardware reset clears it. -/
def Obligations.InvalidStaysUntilBeginOrClr : Prop :=
  ∀ s t : State, step s = .next t → s.block.invalid = true → t.block.invalid = false →
    (∃ rest, s.host = .hardwareReset :: rest) ∨
    ∃ c rest i, s.host = .command c :: rest ∧ decode c = .ok i ∧ (i = .clr ∨ ∃ n, i = .beginPacket n)

/-- R38 (j), R140: a block leaves the idle state only by an executed `BEGIN`, and comes back to it only by `CLR` or
hardware reset. -/
def Obligations.IdleIsLeftOnlyByBegin : Prop :=
  ∀ s t : State, step s = .next t →
    (s.block.idle = true → t.block.idle = false →
      ∃ c rest n, s.host = .command c :: rest ∧ decode c = .ok (.beginPacket n)) ∧
    (s.block.idle = false → t.block.idle = true →
      (∃ rest, s.host = .hardwareReset :: rest) ∨ ∃ c rest, s.host = .command c :: rest ∧ decode c = .ok .clr)

/-! ### Invariants -/

/-- R38 and R37: the reset state meets the invariants, and its `CW`, `SYN`, `UNC` agree. -/
def Obligations.ResetIsConsistent : Prop :=
  State.reset.Consistent ∧ State.reset.block.decodedSettled = true

/-- R38: every step keeps the invariants (a) to (j) and the canonical form of `OBUF`. -/
def Obligations.EveryStepKeepsConsistency : Prop :=
  ∀ s t : State, s.Consistent → step s = .next t → t.Consistent

/-- R202, R38: from a consistent state every step answers a next state: the machine never stops. -/
def Obligations.ConsistentMachinesNeverStop : Prop :=
  ∀ s : State, s.Consistent → ∃ t, step s = .next t

/-- R23, R112: every step keeps `UNC` the overall parity of `CW` and the five group parities of `CW` even. -/
def Obligations.EveryStepKeepsUncTheParityOfCw : Prop :=
  ∀ s t : State, s.block.decodedSettled = true → step s = .next t → t.block.decodedSettled = true

/-- R32, R37, U18, U19: what `OBUF` holds outside the bytes written for the present packet is not observable: two
machines alike but for those bytes answer alike and stay alike. So the byte that unwritten memory reads as (log 4)
and the free bytes after a hardware reset (log 5) reach no response. -/
def Obligations.StaleOutputBytesAreUnobservable : Prop :=
  ∀ s t s' : State, s.Consistent → t.Consistent → s.Alike t → step s = .next s' →
    ∃ t', step t = .next t' ∧ s'.Alike t'

/-- R151, R12: from every consistent state without a fault, the host's `BEGIN size`, one `PUSHW` a group, `END`
compute `decode_payload`: `Fault(MALFORMED)` at `BEGIN` when it is malformed, `DONE` and `INVALID` when it is
invalid, `DONE`, `OLEN` and the bytes when it is valid. For every payload whose size `BEGIN`'s field can hold
(log 12). -/
def Obligations.PacketCommandsComputeDecodePayload : Prop :=
  ∀ (p : List Byte) (s : State), s.Consistent → s.block.faulted = false → p.length < 1024 →
    (decodePayload p = .malformed → step (issue (beginCommand p.length) s) = .next (faultEntry .malformed s)) ∧
    (decodePayload p = .invalid →
      ∃ t, runCommands (decodeCommands p) s = .next t ∧
        t.block.faulted = false ∧ t.block.done = true ∧ t.block.invalid = true) ∧
    ∀ bytes, decodePayload p = .valid bytes →
      ∃ t, runCommands (decodeCommands p) s = .next t ∧
        t.block.faulted = false ∧ t.block.done = true ∧ t.block.invalid = false ∧
        t.block.olen.toNat = bytes.length ∧
        bytesFrom t.block.obuf 0 bytes.length = bytes
end

