-- ==== Sys2Proof/Laws/State.lean ====
section
/-! SUPPORT. One lemma per field per update of the state records, each true by `rfl`, so that no later proof
unfolds a record update. -/

namespace Sys2Proof.Machine

section Port
variable (b : Block) (v : Word) (s : State) (c : CommandWord) (k : Cause)

@[simp] theorem respond_block : (respond b v s).block = b := rfl
@[simp] theorem respond_response : (respond b v s).response = some { rsp := v, err := false } := rfl
@[simp] theorem respond_host : (respond b v s).host = s.host := rfl
@[simp] theorem respond_resets : (respond b v s).resets = s.resets := rfl

@[simp] theorem respondStatus_block : (respondStatus b s).block = b := rfl
@[simp] theorem respondStatus_response : (respondStatus b s).response = some { rsp := statusWord b, err := false } := rfl
@[simp] theorem respondStatus_host : (respondStatus b s).host = s.host := rfl
@[simp] theorem respondStatus_resets : (respondStatus b s).resets = s.resets := rfl

@[simp] theorem refuse_block : (refuse s).block = s.block := rfl
@[simp] theorem refuse_response : (refuse s).response = some { rsp := statusWord s.block, err := true } := rfl
@[simp] theorem refuse_host : (refuse s).host = s.host := rfl
@[simp] theorem refuse_resets : (refuse s).resets = s.resets := rfl

@[simp] theorem faultEntry_block : (faultEntry k s).block = { s.block with faulted := true, err := k.code } := rfl
@[simp] theorem faultEntry_response : (faultEntry k s).response = some { rsp := statusWord { s.block with faulted := true, err := k.code }, err := true } := rfl
@[simp] theorem faultEntry_host : (faultEntry k s).host = s.host := rfl
@[simp] theorem faultEntry_resets : (faultEntry k s).resets = s.resets := rfl

@[simp] theorem hardwareReset_block : (hardwareReset s).block = { Block.reset with obuf := obufAfterReset s.resets } := rfl
@[simp] theorem hardwareReset_response : (hardwareReset s).response = none := rfl
@[simp] theorem hardwareReset_host : (hardwareReset s).host = s.host := rfl
@[simp] theorem hardwareReset_resets : (hardwareReset s).resets = s.resets + 1 := rfl

@[simp] theorem issue_block : (issue c s).block = s.block := rfl
@[simp] theorem issue_response : (issue c s).response = s.response := rfl
@[simp] theorem issue_host : (issue c s).host = .command c :: s.host := rfl
@[simp] theorem issue_resets : (issue c s).resets = s.resets := rfl
end Port

section Registers
variable (b : Block) (size : BitVec 10) (d : Decoded)

@[simp] theorem openPacket_cw : (openPacket size b).cw = 0 := rfl
@[simp] theorem openPacket_syn : (openPacket size b).syn = 0 := rfl
@[simp] theorem openPacket_unc : (openPacket size b).unc = false := rfl
@[simp] theorem openPacket_active : (openPacket size b).active = true := rfl
@[simp] theorem openPacket_done : (openPacket size b).done = false := rfl
@[simp] theorem openPacket_invalid : (openPacket size b).invalid = false := rfl
@[simp] theorem openPacket_size : (openPacket size b).size = size := rfl
@[simp] theorem openPacket_wcnt : (openPacket size b).wcnt = 0 := rfl
@[simp] theorem openPacket_ocnt : (openPacket size b).ocnt = 0 := rfl
@[simp] theorem openPacket_rcnt : (openPacket size b).rcnt = 0 := rfl
@[simp] theorem openPacket_res : (openPacket size b).res = 0 := rfl
@[simp] theorem openPacket_olen : (openPacket size b).olen = 0 := rfl
@[simp] theorem openPacket_obuf : (openPacket size b).obuf = b.obuf := rfl
@[simp] theorem openPacket_faulted : (openPacket size b).faulted = b.faulted := rfl
@[simp] theorem openPacket_err : (openPacket size b).err = b.err := rfl

@[simp] theorem countGroup_cw : (countGroup b).cw = b.cw := rfl
@[simp] theorem countGroup_syn : (countGroup b).syn = b.syn := rfl
@[simp] theorem countGroup_unc : (countGroup b).unc = b.unc := rfl
@[simp] theorem countGroup_active : (countGroup b).active = b.active := rfl
@[simp] theorem countGroup_done : (countGroup b).done = b.done := rfl
@[simp] theorem countGroup_invalid : (countGroup b).invalid = b.invalid := rfl
@[simp] theorem countGroup_size : (countGroup b).size = b.size := rfl
@[simp] theorem countGroup_wcnt : (countGroup b).wcnt = b.wcnt + 1 := rfl
@[simp] theorem countGroup_ocnt : (countGroup b).ocnt = b.ocnt := rfl
@[simp] theorem countGroup_rcnt : (countGroup b).rcnt = b.rcnt := rfl
@[simp] theorem countGroup_res : (countGroup b).res = b.res := rfl
@[simp] theorem countGroup_olen : (countGroup b).olen = b.olen := rfl
@[simp] theorem countGroup_obuf : (countGroup b).obuf = b.obuf := rfl
@[simp] theorem countGroup_faulted : (countGroup b).faulted = b.faulted := rfl
@[simp] theorem countGroup_err : (countGroup b).err = b.err := rfl

@[simp] theorem withDecoded_cw : (b.withDecoded d).cw = d.word := rfl
@[simp] theorem withDecoded_syn : (b.withDecoded d).syn = d.pos := rfl
@[simp] theorem withDecoded_unc : (b.withDecoded d).unc = d.unc := rfl
@[simp] theorem withDecoded_active : (b.withDecoded d).active = b.active := rfl
@[simp] theorem withDecoded_done : (b.withDecoded d).done = b.done := rfl
@[simp] theorem withDecoded_invalid : (b.withDecoded d).invalid = b.invalid := rfl
@[simp] theorem withDecoded_size : (b.withDecoded d).size = b.size := rfl
@[simp] theorem withDecoded_wcnt : (b.withDecoded d).wcnt = b.wcnt := rfl
@[simp] theorem withDecoded_ocnt : (b.withDecoded d).ocnt = b.ocnt := rfl
@[simp] theorem withDecoded_rcnt : (b.withDecoded d).rcnt = b.rcnt := rfl
@[simp] theorem withDecoded_res : (b.withDecoded d).res = b.res := rfl
@[simp] theorem withDecoded_olen : (b.withDecoded d).olen = b.olen := rfl
@[simp] theorem withDecoded_obuf : (b.withDecoded d).obuf = b.obuf := rfl
@[simp] theorem withDecoded_faulted : (b.withDecoded d).faulted = b.faulted := rfl
@[simp] theorem withDecoded_err : (b.withDecoded d).err = b.err := rfl

@[simp] theorem clearBlock_cw : (clearBlock b).cw = 0 := rfl
@[simp] theorem clearBlock_syn : (clearBlock b).syn = 0 := rfl
@[simp] theorem clearBlock_unc : (clearBlock b).unc = false := rfl
@[simp] theorem clearBlock_active : (clearBlock b).active = false := rfl
@[simp] theorem clearBlock_done : (clearBlock b).done = false := rfl
@[simp] theorem clearBlock_invalid : (clearBlock b).invalid = false := rfl
@[simp] theorem clearBlock_size : (clearBlock b).size = 0 := rfl
@[simp] theorem clearBlock_wcnt : (clearBlock b).wcnt = 0 := rfl
@[simp] theorem clearBlock_ocnt : (clearBlock b).ocnt = 0 := rfl
@[simp] theorem clearBlock_rcnt : (clearBlock b).rcnt = 0 := rfl
@[simp] theorem clearBlock_res : (clearBlock b).res = 0 := rfl
@[simp] theorem clearBlock_olen : (clearBlock b).olen = 0 := rfl
@[simp] theorem clearBlock_obuf : (clearBlock b).obuf = b.obuf := rfl
@[simp] theorem clearBlock_faulted : (clearBlock b).faulted = false := rfl
@[simp] theorem clearBlock_err : (clearBlock b).err = 0 := rfl

@[simp] theorem reset_cw : Block.reset.cw = 0 := rfl
@[simp] theorem reset_syn : Block.reset.syn = 0 := rfl
@[simp] theorem reset_unc : Block.reset.unc = false := rfl
@[simp] theorem reset_active : Block.reset.active = false := rfl
@[simp] theorem reset_done : Block.reset.done = false := rfl
@[simp] theorem reset_invalid : Block.reset.invalid = false := rfl
@[simp] theorem reset_size : Block.reset.size = 0 := rfl
@[simp] theorem reset_wcnt : Block.reset.wcnt = 0 := rfl
@[simp] theorem reset_ocnt : Block.reset.ocnt = 0 := rfl
@[simp] theorem reset_rcnt : Block.reset.rcnt = 0 := rfl
@[simp] theorem reset_res : Block.reset.res = 0 := rfl
@[simp] theorem reset_olen : Block.reset.olen = 0 := rfl
@[simp] theorem reset_obuf : Block.reset.obuf = [] := rfl
@[simp] theorem reset_faulted : Block.reset.faulted = false := rfl
@[simp] theorem reset_err : Block.reset.err = 0 := rfl
end Registers

end Sys2Proof.Machine
end

