-- ==== Sys2Proof/Laws/Codec.lean ====
section
/-! SUPPORT. The laws of the codec's functions: parity is linear, and with it the group parities and the error
position; single-bit words; the four pieces of R201 agree. -/

namespace Sys2Proof.Machine

theorem xorBelow_xor (f g : Nat → Bool) (n : Nat) :
    xorBelow (fun k => f k ^^ g k) n = (xorBelow f n ^^ xorBelow g n) := by
  induction n with
  | zero => rfl
  | succ n ih =>
    simp only [xorBelow, ih]
    cases f n <;> cases g n <;> cases xorBelow f n <;> cases xorBelow g n <;> rfl

theorem xorBelow_congr {f g : Nat → Bool} {n : Nat} (h : ∀ k < n, f k = g k) : xorBelow f n = xorBelow g n := by
  induction n with
  | zero => rfl
  | succ n ih => simp only [xorBelow, h n (Nat.lt_succ_self n), ih (fun k hk => h k (Nat.lt_succ_of_lt hk))]

theorem parity_xor (a b : Word) : parity (a ^^^ b) = (parity a ^^ parity b) := by
  simp only [parity, ← xorBelow_xor]
  exact xorBelow_congr (fun k _ => BitVec.getLsbD_xor)

theorem hgroup_xor (g : Group) (a b : Word) : hgroup g (a ^^^ b) = (hgroup g a ^^ hgroup g b) := by
  simp only [hgroup, ← parity_xor]
  congr 1
  ext k
  simp [Bool.and_xor_distrib_right]

theorem overall_xor (a b : Word) : overall (a ^^^ b) = (overall a ^^ overall b) := parity_xor a b

/-- The error position as a function of the five group parities (R110). -/
def positionOf (h1 h2 h4 h8 h16 : Bool) : BitVec 5 :=
  flagBit h16 ++ flagBit h8 ++ flagBit h4 ++ flagBit h2 ++ flagBit h1

/-- The weighted sum of R110 is the number the five group parities spell. -/
theorem syndrome_eq_positionOf (w : Word) :
    syndrome w = positionOf (hgroup .g1 w) (hgroup .g2 w) (hgroup .g4 w) (hgroup .g8 w) (hgroup .g16 w) := by
  simp only [syndrome, oddWeight]
  cases hgroup .g1 w <;> cases hgroup .g2 w <;> cases hgroup .g4 w <;> cases hgroup .g8 w <;>
    cases hgroup .g16 w <;> rfl

theorem positionOf_xor : ∀ a1 a2 a4 a8 a16 b1 b2 b4 b8 b16 : Bool,
    positionOf (a1 ^^ b1) (a2 ^^ b2) (a4 ^^ b4) (a8 ^^ b8) (a16 ^^ b16) =
      positionOf a1 a2 a4 a8 a16 ^^^ positionOf b1 b2 b4 b8 b16 := by decide

theorem syndrome_xor (a b : Word) : syndrome (a ^^^ b) = syndrome a ^^^ syndrome b := by
  simp only [syndrome_eq_positionOf, hgroup_xor, positionOf_xor]

theorem pcheck_eq (w : Word) : pcheck w = flagBit (overall w) ++ syndrome w := by
  rw [syndrome_eq_positionOf, pcheck]
  cases overall w <;> cases hgroup .g1 w <;> cases hgroup .g2 w <;> cases hgroup .g4 w <;> cases hgroup .g8 w <;>
    cases hgroup .g16 w <;> rfl

/-- A codeword is a word with clean groups and even overall parity (R106). -/
theorem isCodeword_iff (w : Word) : isCodeword w = true ↔ syndrome w = 0#5 ∧ overall w = false := by
  have h : ∀ (q : Bool) (p : BitVec 5), (flagBit q ++ p == 0#6) = true ↔ p = 0#5 ∧ q = false := by decide
  rw [isCodeword, pcheck_eq]
  exact h _ _

/-- A single 1 bit at index `i` is in the groups whose weights make up `32 - i` (R100, R201). -/
theorem syndrome_bitMask : ∀ i < 32, syndrome (bitMask i) = if i = 0 then 0#5 else BitVec.ofNat 5 (32 - i) := by
  decide +kernel

theorem overall_bitMask : ∀ i < 32, overall (bitMask i) = true := by decide +kernel

/-- The bit that R112 flips is the one at index `32 - pos`. -/
theorem correct_of_ne_zero (w : Word) {pos : BitVec 5} (h : pos ≠ 0#5) :
    correct w pos = w ^^^ bitMask (32 - pos.toNat) := by
  have hm : ∀ p : BitVec 5, p ≠ 0#5 → 1#32 <<< (p.toNat - 1) = bitMask (32 - p.toNat) := by decide
  rw [correct, if_neg h, hm pos h]

theorem correct_zero (w : Word) : correct w 0#5 = w := rfl

/-- R201, 95 §3 (a): the parity bit of the group of weight `c` is at index `32 - c`, which the stripping
removes. -/
theorem parity_bit_of_group (g : Group) :
    pcheck (bitMask (32 - groupWeight g)) = BitVec.ofNat 6 (32 + groupWeight g) ∧
      32 - groupWeight g ∈ parityIndexes := by
  cases g <;> exact ⟨by decide +kernel, by decide⟩

/-- Bit `n` of the data, counted from the least significant bit, as a bit of the word (R126). -/
theorem extract26_bit (w : Word) (n : Nat) :
    (extract26 w).getLsbD n =
      if n < 1 then w.getLsbD 2
      else if n < 4 then w.getLsbD (n + 3)
      else if n < 11 then w.getLsbD (n + 4)
      else if n < 26 then w.getLsbD (n + 5)
      else false := by
  have h : (w.extractLsb' 16 15 ++ w.extractLsb' 8 7 ++ w.extractLsb' 4 3 ++ w.extractLsb' 2 1).getLsbD n =
      (extract26 w).getLsbD n := rfl
  rw [← h]
  simp only [BitVec.getLsbD_append, BitVec.getLsbD_extractLsb']
  by_cases h1 : n < 1
  · rw [if_pos h1, if_pos h1, show n = 0 by omega]
    simp
  rw [if_neg h1, if_neg h1]
  by_cases h2 : n < 4
  · rw [if_pos (show n - 1 < 3 by omega), if_pos h2, decide_eq_true (by omega), Bool.true_and,
      show 4 + (n - 1) = n + 3 by omega]
  rw [if_neg (show ¬n - 1 < 3 by omega), if_neg h2]
  by_cases h3 : n < 11
  · rw [if_pos (show n - 1 - 3 < 7 by omega), if_pos h3, decide_eq_true (by omega), Bool.true_and,
      show 8 + (n - 1 - 3) = n + 4 by omega]
  rw [if_neg (show ¬n - 1 - 3 < 7 by omega), if_neg h3]
  by_cases h4 : n < 26
  · rw [if_pos h4, decide_eq_true (by omega), Bool.true_and, show 16 + (n - 1 - 3 - 7) = n + 5 by omega]
  · rw [if_neg h4, decide_eq_false (by omega), Bool.false_and]

/-- The data indexes and the parity indexes are all indexes, each once (R125). -/
theorem indexes_partition :
    (parityIndexes ++ dataIndexes).Nodup ∧ ∀ i, i < 32 ↔ i ∈ parityIndexes ++ dataIndexes := by
  constructor
  · decide
  · intro i
    constructor
    · have : ∀ i < 32, i ∈ parityIndexes ++ dataIndexes := by decide
      exact this i
    · have : ∀ i ∈ parityIndexes ++ dataIndexes, i < 32 := by decide
      exact this i

end Sys2Proof.Machine
end

