-- ==== Sys2Proof/Laws/PerInstr.lean ====
section
/-! SUPPORT. Statements made of every command as syntax: one family, `TableRow` (the encoder's word lies in the
command's row of spec/opcode_table.json, R82). -/

namespace Sys2Proof.Laws.TableRow

/-- The encoded command selects its own row of the opcode table: `(c AND mask) = match` (R82). -/
def Statement (i : Instr) : Prop := encode i &&& rowMask i = rowMatch i

/-- A row whose mask is the opcode alone matches every operand. -/
theorem opcode_row (op : BitVec 4) (arg : Word) :
    commandWord op arg &&& 0xF00000000#36 = commandWord op 0#32 := by
  apply BitVec.eq_of_getLsbD_eq
  intro k hk
  have h : ∀ n < 36, (0xF00000000#36).getLsbD n = decide (32 ≤ n) := by decide
  simp only [commandWord, BitVec.getLsbD_and, BitVec.getLsbD_append, h k hk]
  by_cases h32 : k < 32
  · simp [h32, Nat.not_le.mpr h32]
  · simp [h32, Nat.not_lt.mp h32]

/-- The same for a row whose operand field is the low `n` bits: the mask covers all bits from `n` up. -/
theorem field_row {n : Nat} (op : BitVec 4) (v : BitVec n) (mask : CommandWord) (hn32 : n ≤ 32)
    (hm : ∀ k < 36, mask.getLsbD k = decide (n ≤ k)) :
    commandWord op (v.setWidth 32) &&& mask = commandWord op 0#32 := by
  apply BitVec.eq_of_getLsbD_eq
  intro k hk
  simp only [commandWord, BitVec.getLsbD_and, BitVec.getLsbD_append, hm k hk]
  by_cases h32 : k < 32
  · by_cases hn : n ≤ k
    · simp [h32, BitVec.getLsbD_of_ge v k hn]
    · simp [h32, hn]
  · simp [h32, Nat.le_trans hn32 (Nat.not_lt.mp h32)]

theorem nop : Statement .nop := by unfold Statement; decide

theorem clr : Statement .clr := by unfold Statement; decide

theorem beginPacket (v : BitVec 10) : Statement (.beginPacket v) :=
  (field_row 0x2#4 v 0xFFFFFFC00#36 (by decide) (by decide)).trans (by simp only [rowMatch]; decide)

theorem pushw (w : Word) : Statement (.pushw w) := (opcode_row 0x3#4 w).trans (by simp only [rowMatch]; decide)

theorem endPacket : Statement .endPacket := by unfold Statement; decide

theorem rdb (v : BitVec 9) : Statement (.rdb v) :=
  (field_row 0x5#4 v 0xFFFFFFE00#36 (by decide) (by decide)).trans (by simp only [rowMatch]; decide)

theorem rdr (v : BitVec 3) : Statement (.rdr v) :=
  (field_row 0x6#4 v 0xFFFFFFFF8#36 (by decide) (by decide)).trans (by simp only [rowMatch]; decide)

theorem bswap (w : Word) : Statement (.bswap w) := (opcode_row 0x8#4 w).trans (by simp only [rowMatch]; decide)

theorem brev8 (w : Word) : Statement (.brev8 w) := (opcode_row 0x9#4 w).trans (by simp only [rowMatch]; decide)

theorem reord (w : Word) : Statement (.reord w) := (opcode_row 0xA#4 w).trans (by simp only [rowMatch]; decide)

theorem pchk (w : Word) : Statement (.pchk w) := (opcode_row 0xB#4 w).trans (by simp only [rowMatch]; decide)

theorem decw (w : Word) : Statement (.decw w) := (opcode_row 0xC#4 w).trans (by simp only [rowMatch]; decide)

theorem xtr (w : Word) : Statement (.xtr w) := (opcode_row 0xD#4 w).trans (by simp only [rowMatch]; decide)

theorem reserved7 (w : Word) : Statement (.reserved7 w) := (opcode_row 0x7#4 w).trans (by simp only [rowMatch]; decide)

theorem reservedE (w : Word) : Statement (.reservedE w) := (opcode_row 0xE#4 w).trans (by simp only [rowMatch]; decide)

theorem reservedF (w : Word) : Statement (.reservedF w) := (opcode_row 0xF#4 w).trans (by simp only [rowMatch]; decide)

end Sys2Proof.Laws.TableRow
end

