-- ==== Sys2Proof/Laws/Decode.lean ====
section
/-! SUPPORT. The laws of the command word: its two fields, the reserved bits of a field, and what a word that decodes
or is rejected looks like. -/

namespace Sys2Proof

theorem opcodeOf_commandWord (op : BitVec 4) (arg : Word) : opcodeOf (commandWord op arg) = op := by
  unfold opcodeOf commandWord
  apply BitVec.eq_of_getLsbD_eq
  intro k hk
  simp only [BitVec.getLsbD_extractLsb', BitVec.getLsbD_append, hk, decide_true, Bool.true_and]
  rw [if_neg (by omega), Nat.add_sub_cancel_left]

theorem argOf_commandWord (op : BitVec 4) (arg : Word) : argOf (commandWord op arg) = arg := by
  unfold argOf commandWord
  apply BitVec.eq_of_getLsbD_eq
  intro k hk
  simp only [BitVec.getLsbD_extractLsb', BitVec.getLsbD_append, hk, decide_true, Bool.true_and, Nat.zero_add]
  rw [if_pos trivial]

theorem commandWord_fields (c : CommandWord) : commandWord (opcodeOf c) (argOf c) = c := by
  unfold opcodeOf commandWord argOf
  apply BitVec.eq_of_getLsbD_eq
  intro k hk
  simp only [BitVec.getLsbD_append, BitVec.getLsbD_extractLsb']
  split <;> rename_i h
  · simp [h]
  · have : k - 32 < 4 := by omega
    simp [this, show 32 + (k - 32) = k by omega]

theorem decode_commandWord (op : BitVec 4) (arg : Word) : decode (commandWord op arg) = decodeFields op arg := by
  rw [decode, opcodeOf_commandWord, argOf_commandWord]

/-- The reserved bits are 0 exactly when the operand is its field, zero-extended. -/
theorem reservedZero_iff {n : Nat} (arg : Word) : reservedZero n arg = true ↔ (arg.setWidth n).setWidth 32 = arg := by
  simp only [reservedZero, beq_iff_eq]
  constructor
  · intro h
    apply BitVec.eq_of_getLsbD_eq
    intro k hk
    simp only [BitVec.getLsbD_setWidth, hk, decide_true, Bool.true_and]
    by_cases hkn : k < n
    · simp [hkn]
    · have := congrArg (fun x => x.getLsbD (k - n)) h
      simp only [BitVec.getLsbD_ushiftRight, show n + (k - n) = k by omega, BitVec.getLsbD_zero] at this
      simp [hkn, this]
  · intro h
    rw [← h]
    apply BitVec.eq_of_getLsbD_eq
    intro k hk
    simp

/-- The reserved bits are 0 exactly when the operand's value fits its field. -/
theorem reservedZero_iff_lt {n : Nat} (arg : Word) : reservedZero n arg = true ↔ arg.toNat < 2 ^ n := by
  simp only [reservedZero, beq_iff_eq]
  rw [← BitVec.toNat_inj, BitVec.toNat_ushiftRight, Nat.shiftRight_eq_div_pow]
  simp [Nat.div_eq_zero_iff]

theorem fieldOf_setWidth {n : Nat} (h : n ≤ 32) (op : BitVec 4) (v : BitVec n) (i : BitVec n → Instr) :
    fieldOf op n (v.setWidth 32) i = .ok (i v) := by
  have hv : (v.setWidth 32).setWidth n = v := by
    apply BitVec.eq_of_getLsbD_eq
    intro k hk
    simp only [BitVec.getLsbD_setWidth, hk, decide_true, Bool.true_and]
    simp [show k < 32 by omega]
  rw [fieldOf, if_pos ((reservedZero_iff _).mpr (by rw [hv])), hv]

theorem fieldOf_eq_ok {op : BitVec 4} {n : Nat} {arg : Word} {f : BitVec n → Instr} {i : Instr}
    (h : fieldOf op n arg f = .ok i) : (arg.setWidth n).setWidth 32 = arg ∧ i = f (arg.setWidth n) := by
  unfold fieldOf at h
  split at h
  · rename_i hr
    cases h
    exact ⟨(reservedZero_iff arg).mp hr, rfl⟩
  · cases h

theorem fieldOf_eq_error {op : BitVec 4} {n : Nat} {arg : Word} {f : BitVec n → Instr} {e : DecodeError}
    (h : fieldOf op n arg f = .error e) : reservedZero n arg = false := by
  unfold fieldOf at h
  split at h
  · cases h
  · rename_i hr
    simpa using hr

theorem fieldOf_of_reserved {op : BitVec 4} {n : Nat} {arg : Word} {f : BitVec n → Instr}
    (h : reservedZero n arg = false) : fieldOf op n arg f = .error (.reservedOperandBits op arg) := by
  simp [fieldOf, h]

/-- There are sixteen opcodes (R73). -/
theorem opcode_cases (op : BitVec 4) :
    op = 0#4 ∨ op = 1#4 ∨ op = 2#4 ∨ op = 3#4 ∨ op = 4#4 ∨ op = 5#4 ∨ op = 6#4 ∨ op = 7#4 ∨
    op = 8#4 ∨ op = 9#4 ∨ op = 10#4 ∨ op = 11#4 ∨ op = 12#4 ∨ op = 13#4 ∨ op = 14#4 ∨ op = 15#4 := by
  revert op
  decide

/-- A word that decodes has the command's opcode and operand. -/
theorem decodeFields_eq_ok {op : BitVec 4} {arg : Word} {i : Instr} (h : decodeFields op arg = .ok i) :
    op = opcode i ∧ arg = operand i := by
  have z : ∀ arg : Word, (arg.setWidth 0).setWidth 32 = 0#32 := by
    intro arg
    rw [BitVec.eq_nil (arg.setWidth 0)]
    rfl
  have zero : ∀ {j : Instr}, fieldOf op 0 arg (fun _ => j) = .ok i → i = j ∧ arg = 0#32 := by
    intro j hj
    obtain ⟨ha, hi⟩ := fieldOf_eq_ok hj
    exact ⟨hi, ha.symm.trans (z arg)⟩
  rcases opcode_cases op with h' | h' | h' | h' | h' | h' | h' | h' | h' | h' | h' | h' | h' | h' | h' | h' <;>
    subst h'
  · obtain ⟨rfl, ha⟩ := zero (j := .nop) h; exact ⟨rfl, ha⟩
  · obtain ⟨rfl, ha⟩ := zero (j := .clr) h; exact ⟨rfl, ha⟩
  · obtain ⟨ha, rfl⟩ := fieldOf_eq_ok (f := .beginPacket) h; exact ⟨rfl, ha.symm⟩
  · cases h; exact ⟨rfl, rfl⟩
  · obtain ⟨rfl, ha⟩ := zero (j := .endPacket) h; exact ⟨rfl, ha⟩
  · obtain ⟨ha, rfl⟩ := fieldOf_eq_ok (f := .rdb) h; exact ⟨rfl, ha.symm⟩
  · obtain ⟨ha, rfl⟩ := fieldOf_eq_ok (f := .rdr) h; exact ⟨rfl, ha.symm⟩
  all_goals cases h; exact ⟨rfl, rfl⟩

/-- A word is rejected exactly for a reserved operand bit of its format (R75). -/
theorem decodeFields_error_iff (op : BitVec 4) (arg : Word) :
    (∃ e, decodeFields op arg = .error e) ↔
      ((op = 0#4 ∨ op = 1#4 ∨ op = 4#4) ∧ reservedZero 0 arg = false) ∨ (op = 2#4 ∧ reservedZero 10 arg = false) ∨
        (op = 5#4 ∧ reservedZero 9 arg = false) ∨ (op = 6#4 ∧ reservedZero 3 arg = false) := by
  have field : ∀ {op : BitVec 4} {n : Nat} {f : BitVec n → Instr},
      (∃ e, fieldOf op n arg f = .error e) ↔ reservedZero n arg = false := fun {_ _ _} =>
    ⟨fun ⟨_, h⟩ => fieldOf_eq_error h, fun h => ⟨_, fieldOf_of_reserved h⟩⟩
  have ok : ∀ {i : Instr}, ¬∃ e, (Except.ok i : Except DecodeError Instr) = .error e := by
    rintro i ⟨e, h⟩
    cases h
  rcases opcode_cases op with h' | h' | h' | h' | h' | h' | h' | h' | h' | h' | h' | h' | h' | h' | h' | h' <;>
    subst h'
  · exact (field (f := fun _ => .nop)).trans (by simp)
  · exact (field (f := fun _ => .clr)).trans (by simp)
  · exact (field (f := .beginPacket)).trans (by simp)
  · exact iff_of_false ok (by simp)
  · exact (field (f := fun _ => .endPacket)).trans (by simp)
  · exact (field (f := .rdb)).trans (by simp)
  · exact (field (f := .rdr)).trans (by simp)
  all_goals exact iff_of_false ok (by simp)

end Sys2Proof
end

