-- ==== Sys2Proof/Laws/Memory.lean ====
section
/-! SUPPORT. The laws of the output buffer: a read after a write, and every operation keeps the canonical form. -/

namespace Sys2Proof.Machine

@[simp] theorem Memory.read_nil (a : Nat) : Memory.read [] a = Memory.unlisted := rfl

@[simp] theorem Memory.wf_nil : Memory.wf [] = true := rfl

@[simp] theorem Memory.inRange_nil : Memory.inRange [] = true := rfl

theorem Memory.read_of_lt_wfFrom {lo : Nat} {m : Memory} (h : Memory.wfFrom lo m = true) {a : Nat} (ha : a < lo) :
    Memory.read m a = Memory.unlisted := by
  induction m generalizing lo with
  | nil => rfl
  | cons c m ih =>
    obtain ⟨b, v⟩ := c
    simp only [Memory.wfFrom, Bool.and_eq_true, decide_eq_true_eq] at h
    have hne : a ≠ b := by omega
    simp only [Memory.read, hne, if_false]
    exact ih h.2 (by omega)

theorem Memory.wfFrom_mono {lo hi : Nat} {m : Memory} (hle : lo ≤ hi) (h : Memory.wfFrom hi m = true) :
    Memory.wfFrom lo m = true := by
  cases m with
  | nil => rfl
  | cons c m =>
    simp only [Memory.wfFrom, Bool.and_eq_true, decide_eq_true_eq] at h ⊢
    exact ⟨⟨by omega, h.1.2⟩, h.2⟩

theorem Memory.wfFrom_cons {lo a : Nat} {v : Byte} {m : Memory} (hlo : lo ≤ a)
    (h : Memory.wfFrom (a + 1) m = true) : Memory.wfFrom lo (Memory.cons a v m) = true := by
  unfold Memory.cons
  split
  · exact Memory.wfFrom_mono (by omega) h
  · rename_i hv
    simp [Memory.wfFrom, hlo, hv, h]

theorem Memory.read_cons {a : Nat} {v : Byte} {m : Memory} (h : Memory.wfFrom (a + 1) m = true) (k : Nat) :
    Memory.read (Memory.cons a v m) k = if k = a then v else Memory.read m k := by
  unfold Memory.cons
  split
  · rename_i hv
    split
    · rename_i hk
      rw [Memory.read_of_lt_wfFrom h (by omega), hv]
    · rfl
  · rfl

theorem Memory.wfFrom_write {lo a : Nat} {m : Memory} {v : Byte} (hlo : lo ≤ a) (h : Memory.wfFrom lo m = true) :
    Memory.wfFrom lo (Memory.write m a v) = true := by
  induction m generalizing lo with
  | nil => exact Memory.wfFrom_cons hlo rfl
  | cons c m ih =>
    obtain ⟨b, u⟩ := c
    simp only [Memory.wfFrom, Bool.and_eq_true, decide_eq_true_eq] at h
    unfold Memory.write
    split
    · rename_i hab
      apply Memory.wfFrom_cons hlo
      simp only [Memory.wfFrom, Bool.and_eq_true, decide_eq_true_eq]
      exact ⟨⟨by omega, h.1.2⟩, h.2⟩
    · split
      · rename_i hab
        subst hab
        exact Memory.wfFrom_cons hlo h.2
      · simp only [Memory.wfFrom, Bool.and_eq_true, decide_eq_true_eq]
        exact ⟨h.1, ih (by omega) h.2⟩

/-- What a byte reads as after a write: the value written at its address, the old value elsewhere. -/
theorem Memory.read_write {lo a : Nat} {m : Memory} {v : Byte} (h : Memory.wfFrom lo m = true) (k : Nat) :
    Memory.read (Memory.write m a v) k = if k = a then v else Memory.read m k := by
  induction m generalizing lo with
  | nil => exact Memory.read_cons rfl k
  | cons c m ih =>
    obtain ⟨b, u⟩ := c
    have h' := h
    simp only [Memory.wfFrom, Bool.and_eq_true, decide_eq_true_eq] at h
    unfold Memory.write
    split
    · rename_i hab
      refine Memory.read_cons ?_ k
      simp only [Memory.wfFrom, Bool.and_eq_true, decide_eq_true_eq]
      exact ⟨⟨by omega, h.1.2⟩, h.2⟩
    · split
      · rename_i hab
        subst hab
        rw [Memory.read_cons h.2]
        simp only [Memory.read]
        split <;> rfl
      · rename_i hab
        simp only [Memory.read]
        split
        · rename_i hk
          simp [hk, Ne.symm hab]
        · exact ih h.2

theorem Memory.wf_write {m : Memory} {a : Nat} {v : Byte} (h : Memory.wf m = true) :
    Memory.wf (Memory.write m a v) = true := Memory.wfFrom_write (Nat.zero_le a) h

theorem Memory.inRange_write {m : Memory} {a : Nat} {v : Byte} (ha : a < Config.maxOut)
    (h : Memory.inRange m = true) : Memory.inRange (Memory.write m a v) = true := by
  induction m with
  | nil =>
    simp only [Memory.write, Memory.cons]
    split <;> simp [Memory.inRange, ha]
  | cons c m ih =>
    obtain ⟨b, u⟩ := c
    simp only [Memory.inRange, List.all_cons, Bool.and_eq_true, decide_eq_true_eq] at h ih ⊢
    simp only [Memory.write, Memory.cons]
    split
    · split <;> simp [h.1, h.2, ha]
    · split
      · split
        · exact h.2
        · simp only [List.all_cons, Bool.and_eq_true, decide_eq_true_eq]
          exact ⟨ha, h.2⟩
      · simp only [List.all_cons, Bool.and_eq_true, decide_eq_true_eq]
        exact ⟨h.1, ih h.2⟩

theorem Memory.wf_writeBytes {m : Memory} (a : Nat) (vs : List Byte) (h : Memory.wf m = true) :
    Memory.wf (Memory.writeBytes m a vs) = true := by
  induction vs generalizing m a with
  | nil => exact h
  | cons v vs ih => exact ih (a + 1) (Memory.wf_write h)

theorem Memory.inRange_writeBytes {m : Memory} (a : Nat) (vs : List Byte) (ha : a + vs.length ≤ Config.maxOut)
    (h : Memory.inRange m = true) : Memory.inRange (Memory.writeBytes m a vs) = true := by
  induction vs generalizing m a with
  | nil => exact h
  | cons v vs ih =>
    simp only [List.length_cons] at ha
    exact ih (a + 1) (by omega) (Memory.inRange_write (by omega) h)

/-- What a byte reads as after `vs` has been written at `a`: its byte of `vs`, the old value outside. -/
theorem Memory.read_writeBytes {m : Memory} (a : Nat) (vs : List Byte) (h : Memory.wf m = true) (k : Nat) :
    Memory.read (Memory.writeBytes m a vs) k =
      if a ≤ k ∧ k < a + vs.length then vs.getD (k - a) 0#8 else Memory.read m k := by
  induction vs generalizing m a with
  | nil =>
    have : ¬(a ≤ k ∧ k < a + ([] : List Byte).length) := by simp
    rw [if_neg this]; rfl
  | cons v vs ih =>
    rw [Memory.writeBytes, ih (a + 1) (Memory.wf_write h), Memory.read_write h]
    simp only [List.length_cons]
    by_cases h1 : a + 1 ≤ k ∧ k < a + 1 + vs.length
    · rw [if_pos h1, if_pos (by omega), show k - a = (k - (a + 1)) + 1 by omega]
      rfl
    · rw [if_neg h1]
      by_cases h2 : k = a
      · rw [if_pos h2, if_pos (by omega), h2, Nat.sub_self]
        rfl
      · rw [if_neg h2, if_neg (by omega)]

/-- Outside the bytes written, memory reads as before. -/
theorem Memory.read_writeBytes_outside {m : Memory} {a : Nat} {vs : List Byte} (h : Memory.wf m = true) {k : Nat}
    (hk : k < a ∨ a + vs.length ≤ k) : Memory.read (Memory.writeBytes m a vs) k = Memory.read m k := by
  rw [Memory.read_writeBytes a vs h, if_neg (by omega)]

/-- Inside, it reads as the byte written. -/
theorem Memory.read_writeBytes_inside {m : Memory} {a : Nat} {vs : List Byte} (h : Memory.wf m = true) {k : Nat}
    (hk : k < vs.length) : Memory.read (Memory.writeBytes m a vs) (a + k) = vs[k] := by
  rw [Memory.read_writeBytes a vs h, if_pos (by omega), Nat.add_sub_cancel_left]
  simp [hk]

theorem obufAfterReset_wf (n : Nat) : Memory.wf (obufAfterReset n) = true := Memory.wf_writeBytes _ _ rfl

theorem obufAfterReset_inRange (n : Nat) : Memory.inRange (obufAfterReset n) = true :=
  Memory.inRange_writeBytes _ _ (by simp [Config.maxOut]) rfl

end Sys2Proof.Machine
end

