-- ==== Sys2Proof/Laws/Ops.lean ====
section
/-! SUPPORT. One lemma per shared operation of the machine: everything it can answer. -/

namespace Sys2Proof.Machine

/-- The gate passes a command on when no fault stands. -/
theorem gated_of_not_faulted {s : State} (h : s.block.faulted = false) (k : Result) : gated s k = k := by
  simp [gated, h]

/-- The gate refuses every command in the fault state (R178). -/
theorem gated_of_faulted {s : State} (h : s.block.faulted = true) (k : Result) : gated s k = .next (refuse s) := by
  simp [gated, h]

/-- What a gated command can answer: a refusal in the fault state, its own answer otherwise. -/
theorem gated_cases {s : State} {k : Result} {r : Result} (h : gated s k = r) :
    (s.block.faulted = true ∧ r = .next (refuse s)) ∨ (s.block.faulted = false ∧ r = k) := by
  cases hf : s.block.faulted with
  | true => exact .inl ⟨rfl, by rw [← h, gated_of_faulted hf]⟩
  | false => exact .inr ⟨rfl, by rw [← h, gated_of_not_faulted hf]⟩

theorem raiseFault_of_not_faulted {s : State} (h : s.block.faulted = false) (c : Cause) :
    raiseFault c s = faultEntry c s := by simp [raiseFault, h]

theorem raiseFault_of_faulted {s : State} (h : s.block.faulted = true) (c : Cause) : raiseFault c s = refuse s := by
  simp [raiseFault, h]

/-- A fault code is one of 1 to 4 (R171). -/
theorem Cause.code_range (c : Cause) : 1 ≤ c.code.toNat ∧ c.code.toNat ≤ 4 := by cases c <;> decide

/-- Whatever is raised, and whether the gate stands or not: the block keeps everything but the fault record,
and the response is an error. -/
theorem raiseFault_spec (c : Cause) (s : State) :
    ∃ f e, raiseFault c s = { s with
      block := { s.block with faulted := f, err := e }
      response := some { rsp := statusWord { s.block with faulted := f, err := e }, err := true } } := by
  cases h : s.block.faulted with
  | true => exact ⟨s.block.faulted, s.block.err, by rw [raiseFault_of_faulted h]; rfl⟩
  | false => exact ⟨true, c.code, by rw [raiseFault_of_not_faulted h]; rfl⟩

/-- `loadByte` answers the byte exactly below 416. -/
theorem loadByte_of_lt {b : Block} {a : Nat} (h : a < Config.maxOut) :
    loadByte b a = .ok (Memory.read b.obuf a) := by simp [loadByte, h]

theorem loadByte_eq_ok {b : Block} {a : Nat} {v : Byte} (h : loadByte b a = .ok v) :
    a < Config.maxOut ∧ v = Memory.read b.obuf a := by
  unfold loadByte at h
  split at h
  · rename_i hlt
    cases h
    exact ⟨hlt, rfl⟩
  · cases h

/-- `storeBytes` writes all of its bytes exactly when all of their addresses exist. -/
theorem storeBytes_of_le {b : Block} {a : Nat} {vs : List Byte} (h : a + vs.length ≤ Config.maxOut) :
    storeBytes b a vs = .ok { b with obuf := Memory.writeBytes b.obuf a vs } := by simp [storeBytes, h]

theorem storeBytes_eq_ok {b b' : Block} {a : Nat} {vs : List Byte} (h : storeBytes b a vs = .ok b') :
    a + vs.length ≤ Config.maxOut ∧ b' = { b with obuf := Memory.writeBytes b.obuf a vs } := by
  unfold storeBytes at h
  split at h
  · rename_i hle
    cases h
    exact ⟨hle, rfl⟩
  · cases h

theorem packBytes_length (b : Block) (d : Data) : (packBytes b d).length = packCount b := by simp [packBytes]

/-- Everything `append` can answer (R131): the packer's three registers and the bytes at `OCNT`. -/
theorem append_eq_ok {d : Data} {b b' : Block} (h : append d b = .ok b') :
    packAddress b + packCount b ≤ Config.maxOut ∧
    b' = { b with
      obuf := Memory.writeBytes b.obuf (packAddress b) (packBytes b d)
      ocnt := BitVec.ofNat 9 (b.ocnt.toNat + packCount b)
      rcnt := BitVec.ofNat 3 (packRest b)
      res := packResidue b d } := by
  unfold append at h
  cases hs : storeBytes b (packAddress b) (packBytes b d) with
  | error f => rw [hs] at h; cases h
  | ok b1 =>
    rw [hs] at h
    obtain ⟨hle, rfl⟩ := storeBytes_eq_ok hs
    rw [packBytes_length] at hle
    cases h
    exact ⟨hle, rfl⟩

theorem append_of_le {d : Data} {b : Block} (h : packAddress b + packCount b ≤ Config.maxOut) :
    append d b = .ok { b with
      obuf := Memory.writeBytes b.obuf (packAddress b) (packBytes b d)
      ocnt := BitVec.ofNat 9 (b.ocnt.toNat + packCount b)
      rcnt := BitVec.ofNat 3 (packRest b)
      res := packResidue b d } := by
  unfold append
  rw [storeBytes_of_le (by rw [packBytes_length]; exact h)]

/-! ### The checks of the packet commands as propositions -/

theorem sizeMalformed_iff (size : BitVec 10) :
    sizeMalformed size = true ↔ 512 < size.toNat ∨ size.toNat % 4 ≠ 0 := by
  rw [sizeMalformed, Bool.or_eq_true, decide_eq_true_iff, decide_eq_true_iff]
  rfl

theorem trimApplies_iff (size : Nat) : trimApplies size = true ↔ 0 < size ∧ size < 512 := by
  rw [trimApplies, Bool.and_eq_true, decide_eq_true_iff, decide_eq_true_iff]
  rfl

theorem pushOutOfSequence_iff (b : Block) :
    pushOutOfSequence b = true ↔ b.active = false ∨ b.wcnt.toNat = b.size.toNat / 4 := by
  rw [pushOutOfSequence, Bool.or_eq_true, Bool.not_eq_true', decide_eq_true_iff]
  rfl

theorem endOutOfSequence_iff (b : Block) :
    endOutOfSequence b = true ↔
      b.active = false ∨ (b.invalid = false ∧ b.wcnt.toNat < b.size.toNat / 4) := by
  rw [endOutOfSequence, Bool.or_eq_true, Bool.not_eq_true', Bool.and_eq_true, Bool.not_eq_true', decide_eq_true_iff]
  rfl

theorem byteNotAvailable_iff (index : BitVec 9) (b : Block) :
    byteNotAvailable index b = true ↔ b.done = false ∨ b.invalid = true ∨ b.olen.toNat ≤ index.toNat := by
  rw [byteNotAvailable, Block.closedValid, Bool.or_eq_true, Bool.not_eq_true', decide_eq_true_iff]
  cases b.done <;> cases b.invalid <;> simp

/-- A block with a check that does not apply has it false, and the other way round. -/
theorem check_false_iff {c : Bool} {p : Prop} (h : c = true ↔ p) : c = false ↔ ¬p := by
  rw [← h, Bool.not_eq_true]

/-- The trim removes at most `fuel` bytes and at most all of them, all zero, and stops at a byte that is not zero
unless it has run out (R132). -/
theorem trailingZeros_spec (f : Nat → Byte) (fuel n : Nat) :
    trailingZeros f fuel n ≤ fuel ∧ trailingZeros f fuel n ≤ n ∧
    (∀ a, n - trailingZeros f fuel n ≤ a → a < n → f a = 0#8) ∧
    (trailingZeros f fuel n = fuel ∨ trailingZeros f fuel n = n ∨ f (n - trailingZeros f fuel n - 1) ≠ 0#8) := by
  induction fuel generalizing n with
  | zero => simp only [trailingZeros]; exact ⟨le_refl _, Nat.zero_le _, fun a h1 h2 => by omega, by simp⟩
  | succ fuel ih =>
    cases n with
    | zero => simp only [trailingZeros]; exact ⟨Nat.zero_le _, le_refl _, fun a h1 h2 => by omega, by simp⟩
    | succ n =>
      unfold trailingZeros
      split
      · rename_i hz
        obtain ⟨h1, h2, h3, h4⟩ := ih n
        refine ⟨by omega, by omega, fun a ha hlt => ?_, ?_⟩
        · by_cases hn : a = n
          · rw [hn]; exact hz
          · exact h3 a (by omega) (by omega)
        · rcases h4 with h | h | h
          · exact .inl (by omega)
          · exact .inr (.inl (by omega))
          · refine .inr (.inr ?_)
            rwa [show n + 1 - (trailingZeros f fuel n + 1) - 1 = n - trailingZeros f fuel n - 1 by omega]
      · rename_i hz
        exact ⟨Nat.zero_le _, Nat.zero_le _, fun a h1 h2 => by omega, .inr (.inr (by simpa using hz))⟩

/-- The trim reads nothing but the bytes below `n`. -/
theorem trailingZeros_congr {f g : Nat → Byte} (fuel : Nat) {n : Nat} (h : ∀ a < n, f a = g a) :
    trailingZeros f fuel n = trailingZeros g fuel n := by
  induction fuel generalizing n with
  | zero => rfl
  | succ fuel ih =>
    cases n with
    | zero => rfl
    | succ n =>
      simp only [trailingZeros, h n (Nat.lt_succ_self n)]
      rw [ih (fun a ha => h a (Nat.lt_succ_of_lt ha))]

/-- The host's next action is what a step takes. -/
theorem step_nil {s : State} (h : s.host = []) : step s = .next s := by
  simp [step, takeAction, h, idle]

theorem step_hardwareReset {s : State} {rest : List HostAction} (h : s.host = .hardwareReset :: rest) :
    step s = .next (hardwareReset { s with host := rest }) := by simp [step, takeAction, h]

theorem step_command {s : State} {c : CommandWord} {rest : List HostAction} (h : s.host = .command c :: rest) :
    step s = runCommand c { s with host := rest } := by simp [step, takeAction, h]

/-- Everything a step can be: nothing, a hardware reset, a decoded command, or a word that is no command. -/
theorem step_cases {s : State} {r : Result} (h : step s = r) :
    (s.host = [] ∧ r = .next s) ∨
    (∃ rest, s.host = .hardwareReset :: rest ∧ r = .next (hardwareReset { s with host := rest })) ∨
    (∃ c rest i, s.host = .command c :: rest ∧ decode c = .ok i ∧ r = exec i { s with host := rest }) ∨
    (∃ c rest e, s.host = .command c :: rest ∧ decode c = .error e ∧
      r = .next (raiseFault .illegal { s with host := rest })) := by
  cases hh : s.host with
  | nil => exact .inl ⟨rfl, by rw [← h, step_nil hh]⟩
  | cons a rest =>
    cases a with
    | hardwareReset => exact .inr (.inl ⟨rest, rfl, by rw [← h, step_hardwareReset hh]⟩)
    | command c =>
      rw [step_command hh, runCommand] at h
      cases hd : decode c with
      | ok i => rw [hd] at h; exact .inr (.inr (.inl ⟨c, rest, i, rfl, hd, h.symm⟩))
      | error e => rw [hd] at h; exact .inr (.inr (.inr ⟨c, rest, e, rfl, hd, h.symm⟩))

end Sys2Proof.Machine
end

