-- ==== Sys2Proof/Laws/Exec.lean ====
section
/-! SUPPORT. The inversion lemmas of the commands: everything an executed command can do to the block, said once. -/

namespace Sys2Proof.Machine

/-- What an executed command (step 6 of R81) does to the block. -/
def blockEffect (i : Instr) (b b' : Block) : Prop :=
  match i with
  | .clr => b' = clearBlock b
  | .beginPacket size => sizeMalformed size = false ∧ b' = openPacket size b
  | .pushw w => pushOutOfSequence b = false ∧ pushGroup w b = .ok b'
  | .endPacket => endOutOfSequence b = false ∧ closePacket b = .ok b'
  | .rdb index => byteNotAvailable index b = false ∧ b' = b
  | .decw w => b' = b.withDecoded (decodeWord w)
  | .rdr n => n ≠ 7#3 ∧ b' = b
  | .nop | .bswap _ | .brev8 _ | .reord _ | .pchk _ | .xtr _ => b' = b
  | .reserved7 _ | .reservedE _ | .reservedF _ => False

/-- The register number 7, and no other, reads nothing (R33). -/
theorem readRegister_eq_none_iff (n : BitVec 3) (b : Block) : readRegister n b = none ↔ n = 7#3 := by
  have h : ∀ n : BitVec 3, n = 0#3 ∨ n = 1#3 ∨ n = 2#3 ∨ n = 3#3 ∨ n = 4#3 ∨ n = 5#3 ∨ n = 6#3 ∨ n = 7#3 := by
    decide
  rcases h n with h | h | h | h | h | h | h | h <;> subst h <;> simp [readRegister]

theorem finish_eq_next {r : Except Fault Block} {s t : State} (h : finish r s = .next t) :
    ∃ b, r = .ok b ∧ t = respondStatus b s := by
  cases r with
  | ok b => cases h; exact ⟨b, rfl, rfl⟩
  | error f => cases h

/-- Everything `exec` can answer as a next state: a refusal in the fault state, a fault entry, or the command's own
effect with a response that is no error. -/
theorem exec_cases {i : Instr} {s t : State} (h : exec i s = .next t) :
    (s.block.faulted = true ∧ t = refuse s) ∨
    (s.block.faulted = false ∧ ∃ c, t = faultEntry c s) ∨
    ((s.block.faulted = false ∨ i = .clr ∨ ∃ n, i = .rdr n) ∧
      ∃ b v, t = respond b v s ∧ blockEffect i s.block b) := by
  have raised : ∀ {c : Cause}, t = raiseFault c s →
      (s.block.faulted = true ∧ t = refuse s) ∨ (s.block.faulted = false ∧ ∃ c, t = faultEntry c s) := by
    intro c hc
    cases hf : s.block.faulted with
    | true => exact .inl ⟨rfl, by rw [hc, raiseFault_of_faulted hf]⟩
    | false => exact .inr ⟨rfl, c, by rw [hc, raiseFault_of_not_faulted hf]⟩
  have answered : ∀ {v : Word}, answer v s = .next t → blockEffect i s.block s.block →
      (s.block.faulted = true ∧ t = refuse s) ∨
      (s.block.faulted = false ∧ ∃ c, t = faultEntry c s) ∨
      ((s.block.faulted = false ∨ i = .clr ∨ ∃ n, i = .rdr n) ∧
        ∃ b v, t = respond b v s ∧ blockEffect i s.block b) := by
    intro v hv he
    rcases gated_cases hv with ⟨hf, hk⟩ | ⟨hf, hk⟩
    · exact .inl ⟨hf, by cases hk; rfl⟩
    · exact .inr (.inr ⟨.inl hf, s.block, v, by cases hk; rfl, he⟩)
  cases i with
  | nop => exact answered (v := statusWord s.block) h rfl
  | clr => exact .inr (.inr ⟨.inr (.inl rfl), _, _, by cases h; rfl, rfl⟩)
  | rdr n =>
    simp only [exec, execRdr] at h
    cases hr : readRegister n s.block with
    | some v =>
      rw [hr] at h
      refine .inr (.inr ⟨.inr (.inr ⟨n, rfl⟩), s.block, v, by cases h; rfl, ?_, rfl⟩)
      intro hn
      rw [(readRegister_eq_none_iff n s.block).mpr hn] at hr
      cases hr
    | none =>
      rw [hr] at h
      rcases raised (c := .illegal) (by cases h; rfl) with h' | h'
      · exact .inl h'
      · exact .inr (.inl h')
  | bswap w => exact answered h rfl
  | brev8 w => exact answered h rfl
  | reord w => exact answered h rfl
  | pchk w => exact answered h rfl
  | xtr w => exact answered h rfl
  | decw w =>
    rcases gated_cases h with ⟨hf, hk⟩ | ⟨hf, hk⟩
    · exact .inl ⟨hf, by cases hk; rfl⟩
    · exact .inr (.inr ⟨.inl hf, _, _, by cases hk; rfl, rfl⟩)
  | reserved7 x | reservedE x | reservedF x =>
    rcases raised (c := .illegal) (by cases h; rfl) with h' | h'
    · exact .inl h'
    · exact .inr (.inl h')
  | beginPacket size =>
    rcases gated_cases h with ⟨hf, hk⟩ | ⟨hf, hk⟩
    · exact .inl ⟨hf, by cases hk; rfl⟩
    · split at hk
      · rcases raised (c := .malformed) (by cases hk; rfl) with h' | h'
        · exact .inl h'
        · exact .inr (.inl h')
      · rename_i hm
        exact .inr (.inr ⟨.inl hf, _, _, by cases hk; rfl, by simpa using hm, rfl⟩)
  | pushw w =>
    rcases gated_cases h with ⟨hf, hk⟩ | ⟨hf, hk⟩
    · exact .inl ⟨hf, by cases hk; rfl⟩
    · split at hk
      · rcases raised (c := .sequence) (by cases hk; rfl) with h' | h'
        · exact .inl h'
        · exact .inr (.inl h')
      · rename_i hm
        obtain ⟨b, hb, ht⟩ := finish_eq_next hk.symm
        exact .inr (.inr ⟨.inl hf, b, _, ht, by simpa using hm, hb⟩)
  | endPacket =>
    rcases gated_cases h with ⟨hf, hk⟩ | ⟨hf, hk⟩
    · exact .inl ⟨hf, by cases hk; rfl⟩
    · split at hk
      · rcases raised (c := .sequence) (by cases hk; rfl) with h' | h'
        · exact .inl h'
        · exact .inr (.inl h')
      · rename_i hm
        obtain ⟨b, hb, ht⟩ := finish_eq_next hk.symm
        exact .inr (.inr ⟨.inl hf, b, _, ht, by simpa using hm, hb⟩)
  | rdb index =>
    rcases gated_cases h with ⟨hf, hk⟩ | ⟨hf, hk⟩
    · exact .inl ⟨hf, by cases hk; rfl⟩
    · split at hk
      · rcases raised (c := .notAvail) (by cases hk; rfl) with h' | h'
        · exact .inl h'
        · exact .inr (.inl h')
      · rename_i hm
        cases hl : loadByte s.block index.toNat with
        | error f => rw [hl] at hk; cases hk
        | ok v =>
          rw [hl] at hk
          exact .inr (.inr ⟨.inl hf, _, _, by cases hk; rfl, by simpa using hm, rfl⟩)

/-- Everything an executed `PUSHW` can do to the block (R143, R144): count, take the failing word, or pack. -/
theorem pushGroup_eq_ok {w : Word} {b b' : Block} (h : pushGroup w b = .ok b') :
    (b.invalid = true ∧ b' = countGroup b) ∨
    (b.invalid = false ∧ (decodeWord (reorder w)).unc = true ∧
      b' = { (countGroup b).withDecoded (decodeWord (reorder w)) with invalid := true }) ∨
    (b.invalid = false ∧ (decodeWord (reorder w)).unc = false ∧ packAddress b + packCount b ≤ Config.maxOut ∧
      b' = { (countGroup b).withDecoded (decodeWord (reorder w)) with
        obuf := Memory.writeBytes b.obuf (packAddress b) (packBytes b (extract26 (decodeWord (reorder w)).word))
        ocnt := BitVec.ofNat 9 (b.ocnt.toNat + packCount b)
        rcnt := BitVec.ofNat 3 (packRest b)
        res := packResidue b (extract26 (decodeWord (reorder w)).word) }) := by
  unfold pushGroup at h
  split at h
  · rename_i hi
    cases h
    exact .inl ⟨hi, rfl⟩
  · rename_i hi
    have hi : b.invalid = false := by simpa using hi
    unfold takeDecoded at h
    split at h
    · rename_i hu
      cases h
      exact .inr (.inl ⟨hi, hu, rfl⟩)
    · rename_i hu
      obtain ⟨hle, hb⟩ := append_eq_ok h
      exact .inr (.inr ⟨hi, by simpa using hu, hle, hb⟩)

/-- What `END` reads the length to be (R145). -/
theorem closedLength_eq_ok {b : Block} {n : Nat} (h : closedLength b = .ok n) :
    (b.invalid = true ∧ n = 0) ∨
    (b.invalid = false ∧ trimApplies b.size.toNat = true ∧ b.ocnt.toNat ≤ Config.maxOut ∧
      n = b.ocnt.toNat - trimCount (Memory.read b.obuf) b.ocnt.toNat) ∨
    (b.invalid = false ∧ trimApplies b.size.toNat = false ∧ n = b.ocnt.toNat) := by
  unfold closedLength at h
  split at h
  · rename_i hi
    cases h
    exact .inl ⟨hi, rfl⟩
  · rename_i hi
    split at h
    · rename_i ht
      split at h
      · rename_i hle
        cases h
        exact .inr (.inl ⟨by simpa using hi, ht, hle, rfl⟩)
      · cases h
    · rename_i ht
      cases h
      exact .inr (.inr ⟨by simpa using hi, by simpa using ht, rfl⟩)

/-- Everything an executed `END` does to the block (R145): `ACTIVE`, `DONE` and `OLEN`. -/
theorem closePacket_eq_ok {b b' : Block} (h : closePacket b = .ok b') :
    ∃ n, closedLength b = .ok n ∧ b' = { b with active := false, done := true, olen := BitVec.ofNat 9 n } := by
  unfold closePacket at h
  cases hc : closedLength b with
  | error f => rw [hc] at h; cases h
  | ok n => rw [hc] at h; cases h; exact ⟨n, rfl, rfl⟩

end Sys2Proof.Machine
end

