-- ==== Sys2Proof/Laws/Packing.lean ====
section
/-! SUPPORT. The arithmetic of the packer: byte and bit sequences as numbers, the bytes of memory as a sequence. -/

namespace Sys2Proof.Machine

/-- The fold of `bytesValue` from any start. -/
theorem foldl_bytesValue (l : List Byte) (acc : Nat) :
    l.foldl (fun v (b : Byte) => 256 * v + b.toNat) acc = acc * 256 ^ l.length + bytesValue l := by
  induction l generalizing acc with
  | nil => simp [bytesValue]
  | cons b l ih =>
    have h : bytesValue (b :: l) = b.toNat * 256 ^ l.length + bytesValue l := by
      rw [show bytesValue (b :: l) = l.foldl (fun v (b : Byte) => 256 * v + b.toNat) (256 * 0 + b.toNat)
        from rfl, ih]; simp
    rw [List.foldl_cons, ih, h, List.length_cons, pow_succ]
    ring

/-- A byte sequence is its first part followed by its second. -/
theorem bytesValue_append (a b : List Byte) : bytesValue (a ++ b) = bytesValue a * 256 ^ b.length + bytesValue b := by
  rw [bytesValue, List.foldl_append, foldl_bytesValue]; rfl

theorem bytesValue_lt (l : List Byte) : bytesValue l < 256 ^ l.length := by
  induction l with
  | nil => decide
  | cons b l ih =>
    have h : bytesValue (b :: l) = b.toNat * 256 ^ l.length + bytesValue l := by
      rw [show bytesValue (b :: l) = l.foldl (fun v (b : Byte) => 256 * v + b.toNat) (256 * 0 + b.toNat)
        from rfl, foldl_bytesValue]; simp
    rw [h, List.length_cons, pow_succ]
    have := b.isLt
    have : (b.toNat + 1) * 256 ^ l.length ≤ 256 * 256 ^ l.length := Nat.mul_le_mul_right _ this
    have e : (b.toNat + 1) * 256 ^ l.length = b.toNat * 256 ^ l.length + 256 ^ l.length := by ring
    omega

/-- The fold of `bitsValue` from any start. -/
theorem foldl_bitsValue (l : List Bool) (acc : Nat) :
    l.foldl (fun v (b : Bool) => 2 * v + b.toNat) acc = acc * 2 ^ l.length + bitsValue l := by
  induction l generalizing acc with
  | nil => simp [bitsValue]
  | cons b l ih =>
    have h : bitsValue (b :: l) = b.toNat * 2 ^ l.length + bitsValue l := by
      rw [show bitsValue (b :: l) = l.foldl (fun v (b : Bool) => 2 * v + b.toNat) (2 * 0 + b.toNat)
        from rfl, ih]; simp
    rw [List.foldl_cons, ih, h, List.length_cons, pow_succ]
    ring

/-- A bit sequence is its first part followed by its second. -/
theorem bitsValue_append (a b : List Bool) : bitsValue (a ++ b) = bitsValue a * 2 ^ b.length + bitsValue b := by
  rw [bitsValue, List.foldl_append, foldl_bitsValue]; rfl

theorem bitsValue_lt (l : List Bool) : bitsValue l < 2 ^ l.length := by
  induction l with
  | nil => decide
  | cons b l ih =>
    have h : bitsValue (b :: l) = b.toNat * 2 ^ l.length + bitsValue l := by
      rw [show bitsValue (b :: l) = l.foldl (fun v (b : Bool) => 2 * v + b.toNat) (2 * 0 + b.toNat)
        from rfl, foldl_bitsValue]; simp
    rw [h, List.length_cons, pow_succ]
    cases b <;> simp <;> omega

theorem bytesFrom_length (m : Memory) (a n : Nat) : (bytesFrom m a n).length = n := by simp [bytesFrom]

theorem bytesFrom_add (m : Memory) (a n k : Nat) : bytesFrom m a (n + k) = bytesFrom m a n ++ bytesFrom m (a + n) k := by
  simp only [bytesFrom, List.range_add, List.map_append, List.map_map]
  congr 1
  apply List.map_congr_left; intro x _; simp [Nat.add_assoc]

theorem bytesFrom_congr {m m' : Memory} {a n : Nat}
    (h : ∀ k, a ≤ k → k < a + n → Memory.read m k = Memory.read m' k) :
    bytesFrom m a n = bytesFrom m' a n := by
  apply List.map_congr_left
  intro k hk
  simp at hk
  exact h _ (by omega) (by omega)

/-- The bytes just written are what their addresses read. -/
theorem bytesFrom_written {m : Memory} (h : Memory.wf m = true) (a : Nat) (vs : List Byte) :
    bytesFrom (Memory.writeBytes m a vs) a vs.length = vs := by
  apply List.ext_getElem
  · simp [bytesFrom]
  · intro k h1 h2
    simp only [bytesFrom, List.getElem_map, List.getElem_range]
    rw [Memory.read_writeBytes_inside h h2]

theorem dataBits_length (d : Data) : (dataBits d).length = 26 := by simp [dataBits]

/-- The 26 data bits in order spell the data field (R128). -/
theorem dataBits_value (d : Data) : bitsValue (dataBits d) = d.toNat := by
  have key : ∀ n ≤ 26, bitsValue ((List.range n).map (fun k => d.getLsbD (25 - k))) = d.toNat / 2 ^ (26 - n) := by
    intro n hn
    induction n with
    | zero => 
      have := d.isLt
      simp [bitsValue]; omega
    | succ n ih =>
      rw [List.range_succ, List.map_append, bitsValue_append, ih (by omega)]
      simp only [List.map_cons, List.map_nil, List.length_singleton, pow_one]
      have h1 : bitsValue [d.getLsbD (25 - n)] = (d.getLsbD (25 - n)).toNat := by simp [bitsValue]
      rw [h1, BitVec.getLsbD, Nat.testBit_eq_decide_div_mod_eq]
      have h2 : 26 - n = (25 - n) + 1 := by omega
      rw [h2, pow_succ, ← Nat.div_div_eq_div_mul, show 26 - (n + 1) = 25 - n by omega]
      have := Nat.div_add_mod' (d.toNat / 2 ^ (25 - n)) 2
      rcases Nat.mod_two_eq_zero_or_one (d.toNat / 2 ^ (25 - n)) with h | h <;> simp [h] <;> omega
  have := key 26 le_rfl
  simpa [dataBits] using this

/-- `T` is the residue followed by the data field, as a number (R131). -/
theorem packBits_toNat (b : Block) (d : Data) : (packBits b d).toNat = b.res.toNat * 2 ^ 26 + d.toNat := by
  have e1 := b.res.isLt
  have e2 := d.isLt
  rw [packBits, BitVec.toNat_or, BitVec.toNat_shiftLeft, BitVec.toNat_setWidth, BitVec.toNat_setWidth]
  rw [Nat.mod_eq_of_lt (show b.res.toNat < 2^40 by omega), Nat.mod_eq_of_lt (show d.toNat < 2^40 by omega)]
  rw [Nat.mod_eq_of_lt (by rw [Nat.shiftLeft_eq]; omega), ← Nat.shiftLeft_add_eq_or_of_lt e2, Nat.shiftLeft_eq]

/-- The high bytes of a number of `tot` bits spell its high part. -/
theorem bytesValue_chop (T tot : Nat) (n : Nat) (hn : 8 * n ≤ tot) (hT : T < 2 ^ tot) (f : Nat → Byte)
    (hf : ∀ k < n, (f k).toNat = T / 2 ^ (tot - 8 - 8 * k) % 256) :
    bytesValue ((List.range n).map f) = T / 2 ^ (tot - 8 * n) := by
  induction n with
  | zero => simp [bytesValue, Nat.div_eq_of_lt hT]
  | succ n ih =>
    rw [List.range_succ, List.map_append, bytesValue_append, ih (by omega) (fun k hk => hf k (by omega))]
    simp only [List.map_cons, List.map_nil, List.length_singleton, pow_one]
    have : bytesValue [f n] = (f n).toNat := by simp [bytesValue]
    rw [this, hf n (by omega)]
    have h1 : tot - 8 * n = (tot - 8 * (n + 1)) + 8 := by omega
    have h2 : tot - 8 - 8 * n = tot - 8 * (n + 1) := by omega
    rw [h1, h2, pow_add, ← Nat.div_div_eq_div_mul]
    norm_num
    exact Nat.div_add_mod' _ _

/-- What `append` takes apart, it puts together again (R131). -/
theorem append_value {b : Block} (d : Data) (hr : b.res.toNat < 2 ^ b.rcnt.toNat)
    (he : b.rcnt.toNat = 0 ∨ b.rcnt.toNat = 2 ∨ b.rcnt.toNat = 4 ∨ b.rcnt.toNat = 6) :
    bytesValue (packBytes b d) * 2 ^ packRest b + (packResidue b d).toNat = b.res.toNat * 2 ^ 26 + d.toNat := by
  have hT : (packBits b d).toNat < 2 ^ packTotal b := by
    rw [packBits_toNat, packTotal, pow_add]
    have := d.isLt
    have : (b.res.toNat + 1) * 2 ^ 26 ≤ 2 ^ b.rcnt.toNat * 2 ^ 26 := Nat.mul_le_mul_right _ hr
    omega
  have hp : packBytes b d = (List.range (packCount b)).map (packByte b d) := rfl
  rw [hp, bytesValue_chop (packBits b d).toNat (packTotal b) (packCount b) (by simp only [packCount]; omega) hT]
  · rw [show packTotal b - 8 * packCount b = packRest b by simp only [packCount, packRest]; omega]
    have hm : (packResidue b d).toNat = (packBits b d).toNat % 2 ^ packRest b := by
      rw [packResidue, BitVec.toNat_ofNat]
      apply Nat.mod_eq_of_lt
      refine lt_of_lt_of_le (Nat.mod_lt _ (by positivity)) (Nat.pow_le_pow_right (by omega) ?_)
      simp only [packRest, packTotal]; omega
    rw [hm, Nat.div_add_mod', packBits_toNat]
  · intro k hk
    rw [packByte, BitVec.toNat_setWidth, BitVec.toNat_ushiftRight, Nat.shiftRight_eq_div_pow]

/-- Byte `a` of a bit sequence as a part of its value (R128). -/
theorem sequenceByte_value {S : List Bool} {a : Nat} (h : 8 * a + 8 ≤ S.length) :
    (sequenceByte S a).toNat = bitsValue S / 2 ^ (S.length - 8 * a - 8) % 256 := by
  have e : S = S.take (8 * a) ++ ((S.drop (8 * a)).take 8 ++ (S.drop (8 * a)).drop 8) := by
    rw [List.take_append_drop, List.take_append_drop]
  have l2 : ((S.drop (8 * a)).take 8).length = 8 := by simp; omega
  have l3 : ((S.drop (8 * a)).drop 8).length = S.length - 8 * a - 8 := by simp; omega
  have hv : bitsValue S = (bitsValue (S.take (8 * a)) * 256 + bitsValue ((S.drop (8 * a)).take 8)) *
      2 ^ (S.length - 8 * a - 8) + bitsValue ((S.drop (8 * a)).drop 8) := by
    conv_lhs => rw [e]
    rw [bitsValue_append, bitsValue_append, List.length_append, l2, l3, pow_add]; ring
  have hl := bitsValue_lt ((S.drop (8 * a)).drop 8)
  rw [l3] at hl
  have hm := bitsValue_lt ((S.drop (8 * a)).take 8)
  rw [l2] at hm
  rw [sequenceByte, BitVec.toNat_ofNat]
  rw [hv, Nat.add_comm, Nat.add_mul_div_right _ _ (by positivity), Nat.div_eq_of_lt hl]
  norm_num at *

/-- A byte of a byte sequence as a part of its value. -/
theorem getElem_bytesValue {l : List Byte} {a : Nat} (h : a < l.length) :
    (l[a]).toNat = bytesValue l / 256 ^ (l.length - a - 1) % 256 := by
  have e : l = l.take a ++ (l[a] :: l.drop (a + 1)) := by simp
  have hb : ∀ (b : Byte) t, bytesValue (b :: t) = b.toNat * 256 ^ t.length + bytesValue t := by
    intro b l
    rw [show bytesValue (b :: l) = l.foldl (fun v (b : Byte) => 256 * v + b.toNat) (256 * 0 + b.toNat)
        from rfl, foldl_bytesValue]; simp
  have l3 : (l.drop (a + 1)).length = l.length - a - 1 := by simp; omega
  have hv : bytesValue l = (bytesValue (l.take a) * 256 + (l[a]).toNat) *
      256 ^ (l.length - a - 1) + bytesValue (l.drop (a + 1)) := by
    conv_lhs => rw [e]
    rw [bytesValue_append, hb, List.length_cons, l3, pow_succ]; ring
  have hl := bytesValue_lt (l.drop (a + 1))
  rw [l3] at hl
  have := (l[a]).isLt
  rw [hv, Nat.add_comm, Nat.add_mul_div_right _ _ (by positivity), Nat.div_eq_of_lt hl]
  rw [Nat.zero_add, Nat.mul_add_mod', Nat.mod_eq_of_lt this]

/-- When the bytes of memory and a rest spell a bit sequence, each byte is the sequence's byte (R128). -/
theorem read_eq_sequenceByte {m : Memory} {S : List Bool} {n r res : Nat} (hl : S.length = 8 * n + r) (hr : res < 2 ^ r)
    (h : bytesValue (bytesFrom m 0 n) * 2 ^ r + res = bitsValue S) : ∀ a < n, Memory.read m a = sequenceByte S a := by
  intro a ha
  have h1 : a < (bytesFrom m 0 n).length := by rw [bytesFrom_length]; exact ha
  have h2 : (bytesFrom m 0 n)[a] = Memory.read m a := by simp [bytesFrom]
  apply BitVec.eq_of_toNat_eq
  rw [← h2, getElem_bytesValue h1, sequenceByte_value (by omega), bytesFrom_length]
  have hV : bytesValue (bytesFrom m 0 n) = bitsValue S / 2 ^ r := by
    rw [← h, Nat.add_comm, Nat.add_mul_div_right _ _ (by positivity), Nat.div_eq_of_lt hr, Nat.zero_add]
  rw [hV, Nat.div_div_eq_div_mul, show (256 : Nat) = 2 ^ 8 by norm_num, ← pow_mul, ← pow_add]
  congr 3; omega

/-- A payload has a wire group for every four bytes (R51, R26). -/
theorem wireGroups_length : ∀ p : List Byte, (wireGroups p).length = p.length / 4
  | b0 :: b1 :: b2 :: b3 :: rest => by
    have := wireGroups_length rest
    simp only [wireGroups, List.length_cons, this]; omega
  | [] => rfl
  | [_] => by simp [wireGroups]
  | [_, _] => by simp [wireGroups]
  | [_, _, _] => by simp [wireGroups]

end Sys2Proof.Machine
end

