-- ==== Sys2Proof/Tests/Slice0.lean ====
section
/-! SUPPORT. The model's own tests. Expected values are the spec's: the words of R79, the tables and examples of
spec/95_test_vectors.md, the examples in the command rules. -/

namespace Sys2Proof.Tests

open Sys2Proof.Machine

/-! ### WellFormed: an ill-formed term for each check -/

theorem test_wf_rdr7_refused : (Instr.rdr 7#3).wf = false := by decide

theorem test_wf_rdr6 : (Instr.rdr 6#3).wf = true := by decide

theorem test_wf_reserved7_refused : (Instr.reserved7 0x12345678#32).wf = false := by decide

theorem test_wf_reservedE_refused : (Instr.reservedE 0x12345678#32).wf = false := by decide

theorem test_wf_reservedF_refused : (Instr.reservedF 0x12345678#32).wf = false := by decide

/-! ### Decode: R79's example words, and the table of 95 §4.4 for the ill-formed ones -/

/-- The word of opcode 0000 with its 32 operand bits, bit by bit from R71: `NOP`. -/
theorem test_decode_nop : decode 0b000000000000000000000000000000000000#36 = .ok .nop := by decide

theorem test_decode_clr : decode 0x100000000#36 = .ok .clr := by decide

/-- R71 format S, bit by bit: op 0010, 22 zeros, size 1000000000. -/
theorem test_decode_begin512 : decode 0b001000000000000000000000001000000000#36 = .ok (.beginPacket 512#10) := by
  decide

theorem test_decode_pushw : decode 0x3A0000000#36 = .ok (.pushw 0xA0000000#32) := by decide

theorem test_decode_end : decode 0x400000000#36 = .ok .endPacket := by decide

/-- R71 format A, bit by bit: op 0101, 23 zeros, index 110011111 (415). -/
theorem test_decode_rdb415 : decode 0b010100000000000000000000000110011111#36 = .ok (.rdb 415#9) := by decide

theorem test_decode_rdr6 : decode 0x600000006#36 = .ok (.rdr 6#3) := by decide

theorem test_decode_bswap : decode 0x811223344#36 = .ok (.bswap 0x11223344#32) := by decide

theorem test_decode_brev8 : decode 0x901020408#36 = .ok (.brev8 0x01020408#32) := by decide

theorem test_decode_reord : decode 0xA00000001#36 = .ok (.reord 1#32) := by decide

theorem test_decode_pchk : decode 0xB00000003#36 = .ok (.pchk 3#32) := by decide

theorem test_decode_decw : decode 0xC00000003#36 = .ok (.decw 3#32) := by decide

theorem test_decode_xtr : decode 0xDFFFFFFFF#36 = .ok (.xtr 0xFFFFFFFF#32) := by decide

theorem test_decode_reserved7 : decode 0x712345678#36 = .ok (.reserved7 0x12345678#32) := by decide

theorem test_decode_reservedE : decode 0xE12345678#36 = .ok (.reservedE 0x12345678#32) := by decide

theorem test_decode_reservedF : decode 0xF12345678#36 = .ok (.reservedF 0x12345678#32) := by decide

theorem test_decode_nop_reserved_bit : decode 0x000000001#36 = .error (.reservedOperandBits 0#4 1#32) := by decide

theorem test_decode_begin_reserved_bit :
    decode 0x200000402#36 = .error (.reservedOperandBits 2#4 0x402#32) := by decide

theorem test_decode_rdb_reserved_bit :
    decode 0x500000200#36 = .error (.reservedOperandBits 5#4 0x200#32) := by decide

theorem test_decode_rdr_reserved_bit : decode 0x600000008#36 = .error (.reservedOperandBits 6#4 8#32) := by decide

/-- R79: `BEGIN 512` is `0x200000200`. -/
theorem test_encode_begin : encode (.beginPacket 512#10) = 0x200000200#36 := by decide

theorem test_table_word_rdr : decodeTableWord 40 0x600000000 = some (.rdr 0#3) := by decide

theorem test_table_word_too_wide : decodeTableWord 40 0x1600000000 = none := by decide

/-! ### Helpers: what one step answers -/

/-- The response after a step. -/
def responseOf : Result → Option Response
  | .next t => t.response
  | _ => none

/-- The block after a step; the reset block where there is none. -/
def blockOf : Result → Block
  | .next t => t.block
  | _ => Block.reset

/-- The response to one command word. -/
def respTo (b : Block) (c : CommandWord) : Option Response :=
  responseOf (step (issue c { State.reset with block := b }))

/-- The block after one command word. -/
def after (b : Block) (c : CommandWord) : Block :=
  blockOf (step (issue c { State.reset with block := b }))

/-- An executed command's response. -/
def ok (v : Word) : Option Response := some { rsp := v, err := false }

/-- A refused command's response. -/
def refusedWith (v : Word) : Option Response := some { rsp := v, err := true }

/-- An open packet of 4 bytes, no group pushed. -/
def open4 : Block := openPacket 4#10 Block.reset

/-- The packet of 95 §4.2 after its second `PUSHW`: `OBUF` = AA AA AA 95 55 55, `RCNT = 4`, `RES = 0101`. -/
def open20 : Block :=
  { openPacket 20#10 Block.reset with
    wcnt := 2, ocnt := 6, rcnt := 4, res := 0b0101, cw := 0x2AAAD52D
    obuf := [(0, 0xAA), (1, 0xAA), (2, 0xAA), (3, 0x95), (4, 0x55), (5, 0x55)] }

/-- The packet of program P6 before `END`: `OBUF` = 41 42 43 00 00 00. -/
def open8 : Block :=
  { openPacket 8#10 Block.reset with
    wcnt := 2, ocnt := 6, rcnt := 4, obuf := [(0, 0x41), (1, 0x42), (2, 0x43)] }

/-- The packet of program P6 after `END`. -/
def closed8 : Block := { open8 with active := false, done := true, olen := 3 }

/-! ### The unit functions -/

/-- 95 §2.1. -/
theorem test_bswap : respTo Block.reset 0x812345678#36 = ok 0x78563412#32 := by decide

/-- 95 §2.1. -/
theorem test_brev8 : respTo Block.reset 0x912345678#36 = ok 0x482C6A1E#32 := by decide

/-- 95 §2.1. -/
theorem test_reord : respTo Block.reset 0xA12345678#36 = ok 0x1E6A2C48#32 := by decide

/-- R93: the first bit received is Hamming position 1. -/
theorem test_reord_first_bit : respTo Block.reset 0xA80000000#36 = ok 1#32 := by decide

/-- 95 §2.2. -/
theorem test_pchk : respTo Block.reset 0xB12345678#36 = ok 0x34#32 := by decide +kernel

/-- 95 §2.2: the overall parity bit alone. -/
theorem test_pchk_index0 : respTo Block.reset 0xB80000000#36 = ok 0x20#32 := by decide +kernel

/-- 95 §2.3. -/
theorem test_xtr : respTo Block.reset 0xD12345678#36 = ok 0x0091A56E#32 := by decide

/-- 95 §2.3: the parity mask holds no data. -/
theorem test_xtr_parity_mask : respTo Block.reset 0xD8000808B#36 = ok 0#32 := by decide

/-- 95 §3: accepted after a flip at index 12. -/
theorem test_decw : respTo Block.reset 0xC12345678#36 = ok 0x5091E56E#32 := by decide +kernel

/-- 95 §3: a double error; `CW` holds the discarded word. -/
theorem test_decw_double :
    respTo Block.reset 0xC00000003#36 = ok 0x8C000000#32 ∧ (after Block.reset 0xC00000003#36).cw = 7#32 := by
  decide +kernel

/-- R91 to R93, 95 §2.1: the program P5's transform steps. -/
theorem test_transform_steps :
    bswap32 0x7E7A9EA9#32 = 0xA99E7A7E#32 ∧ brev8x4 0xA99E7A7E#32 = 0x95795E7E#32 ∧
      reorder 0x7E7A9EA9#32 = 0x95795E7E#32 := by decide

/-! ### The packet commands -/

/-- R141: `BEGIN 20`. -/
theorem test_begin : respTo Block.reset 0x200000014#36 = ok 1#32 ∧ (after Block.reset 0x200000014#36).size = 20#10 := by
  decide

/-- R141: `BEGIN 18` is malformed. -/
theorem test_begin_malformed : respTo Block.reset 0x200000012#36 = refusedWith 0x18#32 := by decide

/-- 95 §4.2, third row: three bytes across the residue. -/
theorem test_pushw :
    (after open20 0x3FFFFFFFF#36).obuf =
      [(0, 0xAA), (1, 0xAA), (2, 0xAA), (3, 0x95), (4, 0x55), (5, 0x55), (6, 0x5F), (7, 0xFF), (8, 0xFF)] ∧
    packWord (after open20 0x3FFFFFFFF#36) = 0x3F060009#32 := by decide +kernel

/-- R143: one wire bit flipped, uncorrectable. -/
theorem test_pushw_uncorrectable : respTo open4 0x3E0000000#36 = ok 0x85#32 := by decide +kernel

/-- Program P6: the trim takes three zero bytes. -/
theorem test_end_trim : (after open8 0x400000000#36).olen = 3#9 ∧ respTo open8 0x400000000#36 = ok 2#32 := by decide

/-- 95 §4.4: 0 of 1 groups. -/
theorem test_end_short : respTo open4 0x400000000#36 = refusedWith 0x39#32 := by decide

/-- Program P6: `RDB 2`. -/
theorem test_rdb : respTo closed8 0x500000002#36 = ok 0x43#32 := by decide

/-- Program P6: `RDB 3` is at `OLEN`. -/
theorem test_rdb_beyond : respTo closed8 0x500000003#36 = refusedWith 0x4A#32 := by decide

/-! ### The system commands and the fault state -/

/-- R160. -/
theorem test_nop : respTo closed8 0x000000000#36 = ok 2#32 := by decide

/-- R162: `RDR 6` in the fault state. -/
theorem test_rdr_id : respTo { open4 with faulted := true, err := 1 } 0x600000006#36 = ok 0x5ECDED32#32 := by decide

/-- Program P6: `RDR 5`. -/
theorem test_rdr_pack : respTo closed8 0x600000005#36 = ok 0x00040006#32 := by decide

/-- R161: `CLR` leaves the fault state. -/
theorem test_clr : respTo { open4 with faulted := true, err := 1 } 0x100000000#36 = ok 0#32 := by decide

/-- Program P3 step 10: an ill-formed `CLR` in the fault state keeps the first cause. -/
theorem test_clr_refused :
    respTo { open4 with faulted := true, err := 1 } 0x100000001#36 = refusedWith 0x19#32 := by decide

/-- 95 §4.4: `RDR 7`. -/
theorem test_rdr7 : respTo Block.reset 0x600000007#36 = refusedWith 0x28#32 := by decide

/-- 95 §4.4: reserved bit 10 of `BEGIN`, not `MALFORMED`. -/
theorem test_reserved_bit_first : respTo Block.reset 0x200000402#36 = refusedWith 0x28#32 := by decide

/-- 95 §4.4: the reserved opcodes. -/
theorem test_reserved_opcodes :
    respTo Block.reset 0x712345678#36 = refusedWith 0x28#32 ∧
    respTo Block.reset 0xE12345678#36 = refusedWith 0x28#32 ∧
    respTo Block.reset 0xF12345678#36 = refusedWith 0x28#32 := by decide

/-! ### Output length, trim count, the packet function -/

/-- 95 §4.1. -/
theorem test_outlen : outLen 20 = 16 ∧ outLen 508 = 412 ∧ outLen 512 = 416 := by decide

/-- 95 §4.1: `07 00 09 00` loses one byte, six zero bytes lose four. -/
theorem test_trimcount :
    trimCount (fun k => [7#8, 0#8, 9#8, 0#8].getD k 0#8) 4 = 1 ∧ trimCount (fun _ => 0#8) 6 = 4 := by decide

/-- Program P6 as the packet function. -/
theorem test_payload_p6 :
    decodePayload [0x97, 0x08, 0x85, 0x04, 0, 0, 0, 0] = .valid [0x41, 0x42, 0x43] := by decide +kernel

/-- 95 §4.3: a wire bit flipped. -/
theorem test_payload_invalid : decodePayload [0xE0, 0, 0, 0] = .invalid := by decide +kernel

/-! ### The first step after reset -/

/-- The word of `BEGIN 20` placed by `withFetchWord` is what the next step runs. -/
theorem test_fetch_word :
    responseOf (step (State.reset.withFetchWord 40 0x200000014)) = ok 1#32 := by decide

/-- A hardware reset clears an open packet (R190). -/
theorem test_hardware_reset :
    (blockOf (step { State.reset with block := open4, host := [.hardwareReset] })).active = false := by decide

/-! ### States for the witnesses -/

/-- The machine with a given block, nothing to do and nothing answered. -/
def machine (b : Block) : State := { State.reset with block := b }

/-- An open packet of 8 bytes, invalid at its first group, one group not pushed. -/
def invalid8 : Block := { openPacket 8#10 Block.reset with wcnt := 1, invalid := true, unc := true, cw := 0x00000007 }

/-- That packet closed. -/
def closedInvalid8 : Block := { invalid8 with active := false, done := true }

/-- The full packet of 512 bytes, all 128 groups pushed, every output byte 0. -/
def open512 : Block := { openPacket 512#10 Block.reset with wcnt := 128, ocnt := 416 }

/-- The empty packet, open. -/
def open0 : Block := openPacket 0#10 Block.reset

/-- The empty packet, closed. -/
def closed0 : Block := { open0 with active := false, done := true }

/-- `BEGIN 18` from reset has faulted. -/
def faulted1 : Block := { Block.reset with faulted := true, err := 1 }

/-- `open8` with another byte beyond the bytes written for the packet. -/
def open8stale : Block := { open8 with obuf := [(0, 0x41), (1, 0x42), (2, 0x43), (415, 0xFF)] }

theorem consistent_reset : (machine Block.reset).Consistent := by constructor <;> decide

theorem consistent_open4 : (machine open4).Consistent := by constructor <;> decide

theorem consistent_open20 : (machine open20).Consistent := by constructor <;> decide

theorem consistent_open8 : (machine open8).Consistent := by constructor <;> decide

theorem consistent_closed8 : (machine closed8).Consistent := by constructor <;> decide

theorem consistent_invalid8 : (machine invalid8).Consistent := by constructor <;> decide

theorem consistent_closedInvalid8 : (machine closedInvalid8).Consistent := by constructor <;> decide

theorem consistent_open512 : (machine open512).Consistent := by constructor <;> decide

theorem consistent_open0 : (machine open0).Consistent := by constructor <;> decide

theorem consistent_closed0 : (machine closed0).Consistent := by constructor <;> decide

theorem consistent_faulted1 : (machine faulted1).Consistent := by constructor <;> decide

theorem consistent_open8stale : (machine open8stale).Consistent := by constructor <;> decide

/-! ### Witnesses: states and operands that meet the hypotheses of the statements, clause by clause -/

theorem witness_EncodeOfDecodeIsTheWord :
    decode 0x50000019F#36 = .ok (.rdb 415#9) ∧ decode 0x2000003FF#36 = .ok (.beginPacket 1023#10) ∧
      decode 0xFFFFFFFFF#36 = .ok (.reservedF 0xFFFFFFFF#32) := by decide

/-- Reserved bits at both ends of each format's reserved field, register number 7, sizes and an index out of range;
and a legal neighbour of each clause, which meets none of them. -/
theorem witness_ReservedBitsRaiseIllegal :
    (machine closed8).block.faulted = false ∧
    (1#32 ≠ 0#32 ∧ 0x80000000#32 ≠ 0#32) ∧
    ((0x400#32).extractLsb' 10 22 ≠ 0#22 ∧ (0x80000000#32).extractLsb' 10 22 ≠ 0#22) ∧
    ((0x200#32).extractLsb' 9 23 ≠ 0#23 ∧ (0x80000000#32).extractLsb' 9 23 ≠ 0#23) ∧
    ((8#32).extractLsb' 3 29 ≠ 0#29 ∧ (7#32).extractLsb' 0 3 = 7#3 ∧ (6#32).extractLsb' 3 29 = 0#29) ∧
    ((516#32).extractLsb' 10 22 = 0#22 ∧ 512 < (516#32).toNat) ∧
    ((1023#32).extractLsb' 10 22 = 0#22 ∧ (2#32).toNat % 4 ≠ 0) ∧
    ((3#32).extractLsb' 9 23 = 0#23 ∧ closed8.olen.toNat ≤ (3#32).toNat ∧ ¬closed8.olen.toNat ≤ (2#32).toNat) := by
  decide

theorem witness_ReservedOpcodesRaiseIllegal : State.reset.block.faulted = false := by decide

theorem witness_WireGroupsAssembleBigEndian :
    4 * 1 + 3 < [0#8, 0#8, 0#8, 0#8, 1#8, 2#8, 3#8, 4#8].length ∧
      (wireGroups [0#8, 0#8, 0#8, 0#8, 1#8, 2#8, 3#8, 4#8])[1]? = some 0x01020304#32 := by decide

theorem witness_StepRunsTheDecodedCommand :
    (issue 0x200000014#36 State.reset).host = [.command 0x200000014#36] ∧
      decode 0x200000014#36 = .ok (.beginPacket 20#10) := by decide

theorem witness_EveryCommandResponds : (machine open20).Consistent ∧ (machine closed8).Consistent :=
  ⟨consistent_open20, consistent_closed8⟩

theorem witness_RdrAnswersTheRegister : (0#3 : BitVec 3) ≠ 7#3 ∧ (6#3 : BitVec 3) ≠ 7#3 := by decide

theorem witness_StatusCommandsAnswerStatusAfter :
    responseOf (exec .nop (machine closed8)) = ok 2#32 ∧
    responseOf (exec .clr (machine closed8)) = ok 0#32 ∧
    responseOf (exec (.beginPacket 512#10) (machine closed8)) = ok 1#32 ∧
    responseOf (exec (.pushw 0#32) (machine closed8)) = refusedWith 0x3A#32 ∧
    responseOf (exec .endPacket (machine open8)) = ok 2#32 := by decide

theorem witness_NopAnswersStatus : (machine open20).block.faulted = false := by decide

theorem witness_FaultEntryWritesOnlyTheFaultRecord :
    State.reset.block.faulted = false ∧
    responseOf (exec (.beginPacket 18#10) State.reset) = refusedWith 0x18#32 ∧
    responseOf (exec (.reservedF 0#32) State.reset) = refusedWith 0x28#32 ∧
    responseOf (exec .endPacket State.reset) = refusedWith 0x38#32 ∧
    responseOf (exec (.rdb 0#9) State.reset) = refusedWith 0x48#32 := by decide

theorem witness_RaisedFaultsRecordTheirCode : State.reset.block.faulted = false := by decide

/-- A packet command, an ill-formed `CLR`, `RDR 7` and a reserved opcode in the fault state. -/
theorem witness_FaultStateRefusesAllButClrAndRdr :
    (machine faulted1).block.faulted = true ∧
    ∀ c, c = 0x200000004#36 ∨ c = 0x100000001#36 ∨ c = 0x600000007#36 ∨ c = 0x600000008#36 ∨ c = 0x700000000#36 →
      decode c ≠ .ok .clr ∧ ∀ n : BitVec 3, n ≠ 7#3 → decode c ≠ .ok (.rdr n) := by
  refine ⟨rfl, fun c h => ?_⟩
  rcases h with rfl | rfl | rfl | rfl | rfl <;> decide

/-- A refused command, a `CLR` and a hardware reset in the fault state. -/
theorem witness_OnlyClrAndResetLeaveTheFaultState :
    (issue 0x000000000#36 (machine faulted1)).block.faulted = true ∧
    (blockOf (step (issue 0x000000000#36 (machine faulted1)))).err = 1#3 ∧
    (issue 0x100000000#36 (machine faulted1)).host = [.command 0x100000000#36] ∧
    decode 0x100000000#36 = .ok .clr ∧
    (blockOf (step (issue 0x100000000#36 (machine faulted1)))).err = 0#3 ∧
    (blockOf (step { machine faulted1 with host := [.hardwareReset] })).err = 0#3 := by decide

theorem witness_IllFormedCommandsAndOnlyThoseRaiseIllegal :
    State.reset.block.faulted = false ∧ (Instr.rdr 7#3).wf = false ∧ (Instr.rdr 6#3).wf = true ∧
      (Instr.beginPacket 1023#10).wf = true := by decide

/-- The hypotheses of BswapAnswersTheMirror, Brev8ReversesEachByte, ReordReversesAllBits,
TransformsAreCommutingInvolutions, PchkAnswersTheSixParities and XtrAnswersTheDataBits: no standing fault, and an
index in each range. -/
theorem witness_unit_commands :
    (machine closed8).block.faulted = false ∧ (∃ j, j < 4) ∧ (∃ k, k < 8) ∧ ∃ i, i < 32 :=
  ⟨rfl, ⟨3, by decide⟩, ⟨7, by decide⟩, ⟨31, by decide⟩⟩

theorem witness_PcheckIsLinear : 1 ≤ 1 ∧ 1 < 32 ∧ 1 ≤ 31 ∧ 31 < 32 := by decide

/-- 95 §3's codeword, with the one codeword 0: two distinct codewords. -/
theorem witness_DistinctCodewordsDifferInFourBits :
    isCodeword 0x95795E7E#32 = true ∧ isCodeword 0x00000000#32 = true ∧ 0x95795E7E#32 ≠ 0x00000000#32 := by
  decide +kernel

theorem witness_OneCodewordForEachData :
    isCodeword 0x95795E7E#32 = true ∧ extract26 0x95795E7E#32 = extract26 0x95795E7E#32 := by decide +kernel

theorem witness_SyndromeNamesTheFlippedBit :
    isCodeword 0x95795E7E#32 = true ∧ syndrome (0x95795E7E#32 ^^^ bitMask 31) = 1#5 ∧
      syndrome (0x95795E7E#32 ^^^ bitMask 1) = 31#5 ∧ 1 ≤ 31 ∧ 31 < 32 := by decide +kernel

theorem witness_CorrectionFlipsOneBitAndCleansTheGroups : (1#5 : BitVec 5) ≠ 0#5 ∧ (31#5 : BitVec 5) ≠ 0#5 := by decide

/-- One word for each of R115's four cases. -/
theorem witness_FourCasesOfDecodeWord :
    (syndrome 0x95795E7E#32 = 0#5 ∧ overall 0x95795E7E#32 = false) ∧
    (syndrome 0x00000001#32 ≠ 0#5 ∧ overall 0x00000001#32 = true) ∧
    (syndrome 0x00000003#32 ≠ 0#5 ∧ overall 0x00000003#32 = false) ∧
    (syndrome 0x80000000#32 = 0#5 ∧ overall 0x80000000#32 = true) := by decide +kernel

theorem witness_SingleErrorsCorrectedDoubleErrorsDetected :
    isCodeword 0x95795E7E#32 = true ∧ (1 ≤ 1 ∧ 1 < 32) ∧ (1 ≤ 31 ∧ 31 < 32) ∧ (0 < 1 ∧ 1 < 32) ∧ (30 < 31 ∧ 31 < 32) := by
  decide +kernel

theorem witness_DecwWritesTheDecodedWord :
    State.reset.block.faulted = false ∧ overall (correct 0x12345678#32 (syndrome 0x12345678#32)) = false ∧
      overall (correct 0x00000003#32 (syndrome 0x00000003#32)) = true := by decide +kernel

theorem witness_ExtractionReadsNoParityBit :
    ∀ i < 32, i ∉ parityIndexes → bitAt 0x8001018B#32 i = bitAt 0x00010100#32 i := by decide +kernel

/-- Sizes at both ends of the legal range, from reset and from a closed packet. -/
theorem witness_BeginOpensAFreshPacket :
    (machine closed8).block.faulted = false ∧ (machine closed8).block.err = 0#3 ∧
    ((0#10).toNat ≤ 512 ∧ (0#10).toNat % 4 = 0) ∧ ((512#10).toNat ≤ 512 ∧ (512#10).toNat % 4 = 0) := by decide

theorem witness_BeginRefusesAMalformedSize :
    State.reset.block.faulted = false ∧ 512 < (516#10).toNat ∧ 512 < (1023#10).toNat ∧ (1#10).toNat % 4 ≠ 0 ∧
      (511#10).toNat % 4 ≠ 0 := by decide

/-- A codeword accepted at the first group of a packet and at its third; the all-zero word is a codeword. -/
theorem witness_PushwPacksAnAcceptedCodeword :
    (machine open4).Consistent ∧ (machine open20).Consistent ∧
    (∀ b, b = open4 ∨ b = open20 → b.faulted = false ∧ b.active = true ∧ b.invalid = false ∧
      b.wcnt.toNat ≠ b.size.toNat / 4) ∧
    (decodeWord (reorder 0#32)).unc = false ∧ (decodeWord (reorder 0xFFFFFFFF#32)).unc = false := by
  refine ⟨consistent_open4, consistent_open20, fun b h => ?_, by decide +kernel, by decide +kernel⟩
  rcases h with rfl | rfl <;> decide

theorem witness_PushwRecordsAnUncorrectableCodeword :
    (machine open4).block.faulted = false ∧ open4.active = true ∧ open4.invalid = false ∧
      open4.wcnt.toNat ≠ open4.size.toNat / 4 ∧ (decodeWord (reorder 0xE0000000#32)).unc = true := by decide +kernel

theorem witness_PushwOfAnInvalidPacketOnlyCounts :
    (machine invalid8).block.faulted = false ∧ invalid8.active = true ∧ invalid8.invalid = true ∧
      invalid8.wcnt.toNat ≠ invalid8.size.toNat / 4 := by decide

/-- No packet; a packet with all groups pushed; a valid packet short of its last group. -/
theorem witness_SequenceFaultsOfPushwAndEnd :
    (State.reset.block.faulted = false ∧ State.reset.block.active = false) ∧
    (open8.faulted = false ∧ open8.wcnt.toNat = open8.size.toNat / 4) ∧
    (open4.faulted = false ∧ open4.invalid = false ∧ open4.wcnt.toNat < open4.size.toNat / 4) := by decide

/-- A short packet (trim), the full packet and the empty packet (no trim), all complete. -/
theorem witness_EndClosesACompletePacket :
    (machine open8).Consistent ∧ (machine open512).Consistent ∧ (machine open0).Consistent ∧
    (∀ b, b = open8 ∨ b = open512 ∨ b = open0 → b.faulted = false ∧ b.active = true ∧ b.invalid = false ∧
      b.wcnt.toNat = b.size.toNat / 4) ∧
    (0 < open8.size.toNat ∧ open8.size.toNat < 512) ∧ ¬(0 < open512.size.toNat ∧ open512.size.toNat < 512) ∧
    ¬(0 < open0.size.toNat ∧ open0.size.toNat < 512) := by
  refine ⟨consistent_open8, consistent_open512, consistent_open0, fun b h => ?_, by decide, by decide, by decide⟩
  rcases h with rfl | rfl | rfl <;> decide

theorem witness_EndClosesAnInvalidPacketEarly :
    invalid8.faulted = false ∧ invalid8.active = true ∧ invalid8.invalid = true ∧
      invalid8.wcnt.toNat < invalid8.size.toNat / 4 := by decide

theorem witness_TheEmptyPacketIsValid : (machine closed8).block.faulted = false ∧ State.reset.block.faulted = false := by
  decide

/-- The first and the last readable byte. -/
theorem witness_RdbAnswersAReadableByte :
    (machine closed8).Consistent ∧ closed8.faulted = false ∧ closed8.done = true ∧ closed8.invalid = false ∧
      (0#9).toNat < closed8.olen.toNat ∧ (2#9).toNat < closed8.olen.toNat :=
  ⟨consistent_closed8, by decide⟩

/-- Nothing closed; an invalid packet closed; the first byte that is not readable. -/
theorem witness_RdbRefusesUnavailableBytes :
    (open8.faulted = false ∧ open8.done = false) ∧ (closedInvalid8.faulted = false ∧ closedInvalid8.invalid = true) ∧
      (closed8.faulted = false ∧ closed8.olen.toNat ≤ (3#9).toNat) := by decide

/-- A unit command in an open packet; a packet command in one. -/
theorem witness_BystandersDoNotDisturbThePacket :
    isBystander (.decw 3#32) = true ∧ isBystander (.xtr 3#32) = true ∧ isPacketCommand .endPacket = true ∧
    responseOf (exec (.xtr 4#32) (machine open8)) = ok 1#32 ∧
    responseOf (exec .endPacket (machine open8)) = ok 2#32 := by decide

/-- For each group of registers a command that writes it, and a fault that writes the fault record. -/
theorem witness_RegistersAreWrittenOnlyByTheirCommands :
    (blockOf (exec (.decw 3#32) State.reset)).cw ≠ State.reset.block.cw ∧
    (blockOf (exec (.beginPacket 4#10) State.reset)).active ≠ State.reset.block.active ∧
    (blockOf (exec (.beginPacket 4#10) State.reset)).size ≠ State.reset.block.size ∧
    (blockOf (exec (.pushw 0xFFFFFFFF#32) (machine open4))).obuf ≠ open4.obuf ∧
    (blockOf (exec (.pushw 0xFFFFFFFF#32) (machine open4))).wcnt ≠ open4.wcnt ∧
    (blockOf (exec (.reserved7 0#32) State.reset)).err ≠ State.reset.block.err := by decide +kernel

theorem witness_WcntCountsThePushedGroups :
    (issue 0x3FFFFFFFF#36 (machine open20)).Consistent ∧
    (issue 0x3FFFFFFFF#36 (machine open20)).host = [.command 0x3FFFFFFFF#36] ∧
    decode 0x3FFFFFFFF#36 = .ok (.pushw 0xFFFFFFFF#32) ∧
    (responseOf (step (issue 0x3FFFFFFFF#36 (machine open20)))).map Response.err = some false :=
  ⟨consistent_open20, by decide +kernel⟩

theorem witness_InvalidStaysUntilBeginOrClr :
    (issue 0x200000004#36 (machine invalid8)).block.invalid = true ∧
    (blockOf (step (issue 0x200000004#36 (machine invalid8)))).invalid = false ∧
    (blockOf (step (issue 0x100000000#36 (machine invalid8)))).invalid = false ∧
    (blockOf (step { machine invalid8 with host := [.hardwareReset] })).invalid = false := by decide

theorem witness_IdleIsLeftOnlyByBegin :
    (State.reset.block.idle = true ∧ (blockOf (step (issue 0x200000004#36 State.reset))).idle = false) ∧
    (closed8.idle = false ∧ (blockOf (step (issue 0x100000000#36 (machine closed8)))).idle = true) := by decide

theorem witness_EveryStepKeepsConsistency :
    (issue 0x400000000#36 (machine open8)).Consistent ∧
      responseOf (step (issue 0x400000000#36 (machine open8))) = ok 2#32 :=
  ⟨consistent_open8, by decide⟩

theorem witness_ConsistentMachinesNeverStop :
    (machine open512).Consistent ∧ (machine closedInvalid8).Consistent ∧ (machine faulted1).Consistent :=
  ⟨consistent_open512, consistent_closedInvalid8, consistent_faulted1⟩

/-- 95 §3: `DECW` of a double error leaves a rejected word whose groups are clean. -/
theorem witness_EveryStepKeepsUncTheParityOfCw :
    State.reset.block.decodedSettled = true ∧
      responseOf (step (issue 0xC00000003#36 State.reset)) = ok 0x8C000000#32 := by decide +kernel

/-- Two machines that differ in a byte that was not written for the packet, and an `END` that reads the others. -/
theorem witness_StaleOutputBytesAreUnobservable :
    (issue 0x400000000#36 (machine open8)).Consistent ∧ (issue 0x400000000#36 (machine open8stale)).Consistent ∧
    (issue 0x400000000#36 (machine open8)).Alike (issue 0x400000000#36 (machine open8stale)) ∧
    open8.obuf ≠ open8stale.obuf ∧
    responseOf (step (issue 0x400000000#36 (machine open8))) = ok 2#32 := by
  refine ⟨consistent_open8, consistent_open8stale, ⟨⟨rfl, ?_⟩, rfl, rfl⟩, by decide, by decide⟩
  decide

/-- A payload of each classification: 3 bytes, a flipped bit, and program P6's. -/
theorem witness_PacketCommandsComputeDecodePayload :
    (machine closed8).Consistent ∧ closed8.faulted = false ∧
    (decodePayload [0, 0, 0] = .malformed ∧ [0#8, 0#8, 0#8].length < 1024) ∧
    (decodePayload [0xE0, 0, 0, 0] = .invalid ∧ [0xE0#8, 0#8, 0#8, 0#8].length < 1024) ∧
    decodePayload [0x97, 0x08, 0x85, 0x04, 0, 0, 0, 0] = .valid [0x41, 0x42, 0x43] :=
  ⟨consistent_closed8, by decide +kernel⟩

end Sys2Proof.Tests
end

namespace Sys2Proof.Machine

/-- R81 (6): a word that decodes is run as its command. -/
theorem runCommand_of_decode_ok {c : CommandWord} {i : Instr} (h : decode c = .ok i) (s : State) :
    runCommand c s = exec i s := by
  simp only [runCommand, h]

/-- Settles O8: the step takes the word off the host's list (`step_command`) and runs the command it decodes to. -/
theorem stepRunsTheDecodedCommand : Obligations.StepRunsTheDecodedCommand := by
  intro s c rest i hhost hdecode
  rw [step_command hhost, runCommand_of_decode_ok hdecode]

end Sys2Proof.Machine

namespace Sys2Proof.Machine

/-! ### What one step does to the block -/

/-- R176, R178: what raising a fault does to the block. -/
theorem raiseFault_block (k : Cause) (s : State) :
    (raiseFault k s).block = s.block ∨ (raiseFault k s).block = { s.block with faulted := true, err := k.code } := by
  cases hf : s.block.faulted with
  | true => rw [raiseFault_of_faulted hf]; exact .inl rfl
  | false => rw [raiseFault_of_not_faulted hf]; exact .inr rfl

/-- Everything a step can do to the block: nothing, a hardware reset, a fault entry, or a decoded command's own
effect. The host list, the response and the reset counter are left out. -/
theorem step_block_cases {s t : State} (h : step s = .next t) :
    t.block = s.block ∨
    (∃ rest, s.host = .hardwareReset :: rest ∧ t.block = { clearBlock s.block with obuf := obufAfterReset s.resets }) ∨
    (∃ k : Cause, t.block = { s.block with faulted := true, err := k.code }) ∨
    ∃ c rest i, s.host = .command c :: rest ∧ decode c = .ok i ∧ blockEffect i s.block t.block := by
  rcases step_cases h with ⟨_, ht⟩ | ⟨rest, hhost, ht⟩ | ⟨c, rest, i, hhost, hdecode, ht⟩ | ⟨c, rest, e, _, _, ht⟩
  · cases ht; exact .inl rfl
  · cases ht; exact .inr (.inl ⟨rest, hhost, rfl⟩)
  · rcases exec_cases ht.symm with ⟨_, rfl⟩ | ⟨_, k, rfl⟩ | ⟨_, b, v, rfl, heffect⟩
    · exact .inl rfl
    · exact .inr (.inr (.inl ⟨k, rfl⟩))
    · exact .inr (.inr (.inr ⟨c, rest, i, hhost, hdecode, heffect⟩))
  · cases ht
    rcases raiseFault_block .illegal { s with host := rest } with hb | hb
    · exact .inl hb
    · exact .inr (.inr (.inl ⟨.illegal, hb⟩))

/-- The five ways a command writes the block; every other command leaves it as it is. -/
theorem blockEffect_cases {i : Instr} {b b' : Block} (h : blockEffect i b b') :
    (i = .clr ∧ b' = clearBlock b) ∨
    (∃ size, i = .beginPacket size ∧ sizeMalformed size = false ∧ b' = openPacket size b) ∨
    (∃ w, i = .pushw w ∧ pushOutOfSequence b = false ∧ pushGroup w b = .ok b') ∨
    (i = .endPacket ∧ endOutOfSequence b = false ∧ closePacket b = .ok b') ∨
    (∃ w, i = .decw w ∧ b' = b.withDecoded (decodeWord w)) ∨
    b' = b := by
  cases i with
  | clr => exact .inl ⟨rfl, h⟩
  | beginPacket size => exact .inr (.inl ⟨size, rfl, h⟩)
  | pushw w => exact .inr (.inr (.inl ⟨w, rfl, h⟩))
  | endPacket => exact .inr (.inr (.inr (.inl ⟨rfl, h⟩)))
  | decw w => exact .inr (.inr (.inr (.inr (.inl ⟨w, rfl, h⟩))))
  | rdb _ | rdr _ => exact .inr (.inr (.inr (.inr (.inr h.2))))
  | nop | bswap _ | brev8 _ | reord _ | pchk _ | xtr _ => exact .inr (.inr (.inr (.inr (.inr h))))
  | reserved7 _ | reservedE _ | reservedF _ => exact h.elim

/-- The block once `append(d)` has run (R131). -/
def Block.appended (d : Data) (b : Block) : Block :=
  { b with
    obuf := Memory.writeBytes b.obuf (packAddress b) (packBytes b d)
    ocnt := BitVec.ofNat 9 (b.ocnt.toNat + packCount b)
    rcnt := BitVec.ofNat 3 (packRest b)
    res := packResidue b d }

/-- `append` answers exactly when all of its bytes exist. -/
theorem append_eq_ok_iff {d : Data} {b b' : Block} :
    append d b = .ok b' ↔ packAddress b + packCount b ≤ Config.maxOut ∧ b' = b.appended d := by
  refine ⟨append_eq_ok, fun h => ?_⟩
  rw [append_of_le h.1, h.2]
  rfl

/-! ### The invariants of R38, operation by operation -/

/-- R38 (b), (c): no packet has more than 128 groups, so `WCNT` is at most 128. -/
theorem Block.Consistent.wcnt_le {b : Block} (hb : b.Consistent) : b.wcnt.toNat ≤ 128 := by
  have hcount : b.wcnt.toNat ≤ b.size.toNat / 4 := hb.countBound
  have hsize := hb.sizeBound
  omega

/-- R38 (c), R174: where `PUSHW` is in sequence, a group is still to come. -/
theorem Block.Consistent.wcnt_lt_of_push {b : Block} (hb : b.Consistent) (h : pushOutOfSequence b = false) :
    b.active = true ∧ b.wcnt.toNat < b.size.toNat / 4 := by
  rw [check_false_iff (pushOutOfSequence_iff b)] at h
  have hcount : b.wcnt.toNat ≤ b.size.toNat / 4 := hb.countBound
  exact ⟨by simpa using fun ha => h (.inl ha), by omega⟩

/-- R38 (a): an open packet is not a closed one. -/
theorem Block.Consistent.done_of_active {b : Block} (hb : b.Consistent) (ha : b.active = true) : b.done = false := by
  simpa using fun hd => hb.notBoth ⟨ha, hd⟩

/-- R25: `WCNT` does not wrap where it is counted. -/
theorem countGroup_wcnt_toNat {b : Block} (h : b.wcnt.toNat < 255) :
    (countGroup b).wcnt.toNat = b.wcnt.toNat + 1 := by
  rw [countGroup_wcnt, BitVec.toNat_add, show (1 : BitVec 8).toNat = 1 from rfl]
  omega

/-- R38 (d): a fault entry records a code with the flag. -/
theorem Block.Consistent.faultRecord {b : Block} (hb : b.Consistent) (k : Cause) :
    Block.Consistent { b with faulted := true, err := k.code } :=
  { hb with noFaultNoCode := nofun, faultHasCode := fun _ => k.code_range }

/-- R38 (j): a block with every register 0 is consistent whatever its buffer holds. -/
theorem Block.Consistent.cleared (b : Block) {m : Memory} (hwf : Memory.wf m = true)
    (hrange : Memory.inRange m = true) : Block.Consistent { clearBlock b with obuf := m } where
  notBoth := by simp
  sizeAligned := by simp
  sizeBound := by simp
  countBound := by simp
  noFaultNoCode := by simp
  faultHasCode := by simp
  restEven := by simp
  residueBound := by simp
  packerInStep := by simp
  readableWritten := by simp
  writtenBound := by simp
  closedComplete := by simp
  closedUntrimmed := by simp
  invalidUnreadable := by simp
  idleCleared := by simp
  bufferCanonical := hwf
  bufferInRange := hrange

/-- R141: `BEGIN` with a legal size opens a consistent packet. -/
theorem Block.Consistent.opened {b : Block} (hb : b.Consistent) {size : BitVec 10}
    (h : sizeMalformed size = false) : (openPacket size b).Consistent := by
  rw [check_false_iff (sizeMalformed_iff size)] at h
  exact {
    notBoth := by simp
    sizeAligned := by rw [openPacket_size]; omega
    sizeBound := by rw [openPacket_size]; omega
    countBound := by simp
    noFaultNoCode := hb.noFaultNoCode
    faultHasCode := hb.faultHasCode
    restEven := by simp
    residueBound := by simp
    packerInStep := by simp
    readableWritten := by simp
    writtenBound := by simp
    closedComplete := by simp
    closedUntrimmed := by simp
    invalidUnreadable := by simp
    idleCleared := by simp
    bufferCanonical := hb.bufferCanonical
    bufferInRange := hb.bufferInRange }

/-- No clause of R38 speaks of `CW`, `SYN`, `UNC`. -/
theorem Block.Consistent.decoded {b : Block} (hb : b.Consistent) (d : Decoded) : (b.withDecoded d).Consistent :=
  { hb with }

/-- R143, R144: counting a group of an invalid packet. -/
theorem Block.Consistent.countedInvalid {b : Block} (hb : b.Consistent) (h : pushOutOfSequence b = false) :
    Block.Consistent { countGroup b with invalid := true } := by
  obtain ⟨hactive, hlt⟩ := hb.wcnt_lt_of_push h
  have hdone := hb.done_of_active hactive
  have hwcnt : (countGroup b).wcnt.toNat = b.wcnt.toNat + 1 :=
    countGroup_wcnt_toNat (by have := hb.sizeBound; omega)
  exact { hb with
    countBound := by
      change (countGroup b).wcnt.toNat ≤ b.size.toNat / 4
      omega
    packerInStep := nofun
    closedComplete := nofun
    closedUntrimmed := nofun
    invalidUnreadable := fun _ hd => absurd (hdone.symm.trans hd) (by simp)
    idleCleared := fun ha => absurd (hactive.symm.trans ha) (by simp) }

/-- R38 (e), R131: the new residue has no bit from the new `RCNT` up. -/
theorem packResidue_lt (b : Block) (d : Data) : (packResidue b d).toNat < 2 ^ packRest b := by
  rw [packResidue, BitVec.toNat_ofNat]
  exact lt_of_le_of_lt (Nat.mod_le _ _) (Nat.mod_lt _ (by positivity))

/-- R38 (f) and R131: with the packer in step and a group still to come, a further data field makes `WCNT + 1`
groups of bits out of `OCNT`, `RCNT`, and all of its bytes exist. -/
theorem packer_in_step {o r w : Nat} (ho : o = 26 * w / 8) (hr : r = 26 * w % 8) (hw : w < 128) :
    o + (r + 26) / 8 = 26 * (w + 1) / 8 ∧ (r + 26) % 8 = 26 * (w + 1) % 8 ∧ o + (r + 26) / 8 ≤ 416 := by
  omega

/-- R143: an accepted group, counted and packed. -/
theorem Block.Consistent.packed {b : Block} (hb : b.Consistent) (h : pushOutOfSequence b = false)
    (hvalid : b.invalid = false) (d : Data) (hle : packAddress b + packCount b ≤ Config.maxOut) :
    ((countGroup b).appended d).Consistent := by
  obtain ⟨hactive, hlt⟩ := hb.wcnt_lt_of_push h
  have hdone := hb.done_of_active hactive
  have hw : b.wcnt.toNat < 128 := by have := hb.sizeBound; omega
  obtain ⟨hocnt, hrcnt⟩ := hb.packerInStep hactive hvalid
  have hstep : b.ocnt.toNat + packCount b = 26 * (b.wcnt.toNat + 1) / 8 ∧
      packRest b = 26 * (b.wcnt.toNat + 1) % 8 ∧ b.ocnt.toNat + packCount b ≤ 416 := packer_in_step hocnt hrcnt hw
  obtain ⟨hbytes, hrest, hbound⟩ := hstep
  have hwcnt' : ((countGroup b).appended d).wcnt.toNat = b.wcnt.toNat + 1 := countGroup_wcnt_toNat (by omega)
  have hocnt' : ((countGroup b).appended d).ocnt.toNat = b.ocnt.toNat + packCount b := by
    change (BitVec.ofNat 9 (b.ocnt.toNat + packCount b)).toNat = _
    rw [BitVec.toNat_ofNat]; omega
  have hrcnt' : ((countGroup b).appended d).rcnt.toNat = packRest b := by
    change (BitVec.ofNat 3 (packRest b)).toNat = _
    rw [BitVec.toNat_ofNat]; omega
  exact { hb with
    countBound := by rw [hwcnt']; exact hlt
    restEven := by rw [hrcnt']; omega
    residueBound := by rw [hrcnt']; exact packResidue_lt b d
    packerInStep := fun _ _ => by rw [hocnt', hrcnt', hwcnt']; exact ⟨hbytes, hrest⟩
    readableWritten := by rw [hocnt']; exact le_trans hb.readableWritten (Nat.le_add_right _ _)
    writtenBound := by rw [hocnt']; exact hbound
    closedComplete := fun hd => absurd (hdone.symm.trans hd) (by simp)
    closedUntrimmed := fun hd => absurd (hdone.symm.trans hd) (by simp)
    invalidUnreadable := fun _ hd => absurd (hdone.symm.trans hd) (by simp)
    idleCleared := fun ha => absurd (hactive.symm.trans ha) (by simp)
    bufferCanonical := Memory.wf_writeBytes _ _ hb.bufferCanonical
    bufferInRange := Memory.inRange_writeBytes _ _ (by rw [packBytes_length]; exact hle) hb.bufferInRange }

/-- An executed `PUSHW` keeps R38, whatever the codeword is. -/
theorem Block.Consistent.pushed {b b' : Block} {w : Word} (hb : b.Consistent) (h : pushOutOfSequence b = false)
    (hpush : pushGroup w b = .ok b') : b'.Consistent := by
  rcases pushGroup_eq_ok hpush with ⟨hinvalid, rfl⟩ | ⟨_, _, rfl⟩ | ⟨hvalid, _, hle, rfl⟩
  · have hcount : countGroup b = { countGroup b with invalid := true } := by rw [← hinvalid]; rfl
    exact hcount ▸ hb.countedInvalid h
  · exact (hb.countedInvalid h).decoded _
  · exact (hb.packed h hvalid _ hle).decoded _

/-- R145, R132, R133: how far the readable length can lie from `OCNT`. -/
theorem closedLength_bounds {b : Block} {n : Nat} (h : closedLength b = .ok n) :
    n ≤ b.ocnt.toNat ∧ (b.invalid = true → n = 0) ∧ (b.invalid = false → b.ocnt.toNat ≤ n + 4) ∧
    (b.invalid = false → b.size.toNat = 0 ∨ b.size.toNat = 512 → n = b.ocnt.toNat) := by
  rcases closedLength_eq_ok h with ⟨hi, rfl⟩ | ⟨hi, ht, _, rfl⟩ | ⟨hi, _, rfl⟩
  · simp [hi]
  · have htrim : trimCount (Memory.read b.obuf) b.ocnt.toNat ≤ 4 := (trailingZeros_spec _ _ _).1
    rw [trimApplies_iff] at ht
    refine ⟨by omega, by simp [hi], fun _ => by omega, fun _ => by omega⟩
  · simp [hi]

/-- An executed `END` keeps R38. -/
theorem Block.Consistent.closed {b b' : Block} (hb : b.Consistent) (h : endOutOfSequence b = false)
    (hclose : closePacket b = .ok b') : b'.Consistent := by
  obtain ⟨n, hn, rfl⟩ := closePacket_eq_ok hclose
  obtain ⟨hle, hinvalid, hnear, huntrimmed⟩ := closedLength_bounds hn
  rw [check_false_iff (endOutOfSequence_iff b)] at h
  have hactive : b.active = true := by simpa using fun ha => h (.inl ha)
  have hwritten := hb.writtenBound
  have holen : (BitVec.ofNat 9 n).toNat = n := by rw [BitVec.toNat_ofNat]; omega
  exact { hb with
    notBoth := by simp
    packerInStep := nofun
    readableWritten := by simp only [holen]; exact hle
    closedComplete := fun _ hi => by
      have hi : b.invalid = false := hi
      have hcount : b.wcnt.toNat ≤ b.size.toNat / 4 := hb.countBound
      have hall : b.wcnt.toNat = b.size.toNat / 4 := by
        have : ¬b.wcnt.toNat < b.size.toNat / 4 := fun hlt => h (.inr ⟨hi, hlt⟩)
        omega
      obtain ⟨hocnt, _⟩ := hb.packerInStep hactive hi
      have haligned := hb.sizeAligned
      simp only [holen]
      exact ⟨hall, by omega, hnear hi⟩
    closedUntrimmed := fun _ hi hsize => by
      apply BitVec.eq_of_toNat_eq
      simp only [holen]
      exact huntrimmed hi hsize
    invalidUnreadable := fun hi _ => by simp only [hinvalid hi]
    idleCleared := nofun }

/-- Every executed command keeps R38. -/
theorem Block.Consistent.effect {b b' : Block} {i : Instr} (hb : b.Consistent) (h : blockEffect i b b') :
    b'.Consistent := by
  rcases blockEffect_cases h with ⟨_, rfl⟩ | ⟨size, _, hsize, rfl⟩ | ⟨w, _, hseq, hpush⟩ | ⟨_, hseq, hclose⟩ |
    ⟨w, _, rfl⟩ | rfl
  · exact .cleared b hb.bufferCanonical hb.bufferInRange
  · exact hb.opened hsize
  · exact hb.pushed hseq hpush
  · exact hb.closed hseq hclose
  · exact hb.decoded _
  · exact hb

/-- Settles O56: the four things a step can do to the block (`step_block_cases`) each keep R38; the work is in
`PUSHW` (`Block.Consistent.pushed`) and `END` (`Block.Consistent.closed`). -/
theorem everyStepKeepsConsistency : Obligations.EveryStepKeepsConsistency := by
  intro s t hs hstep
  have hs : s.block.Consistent := hs
  change t.block.Consistent
  rcases step_block_cases hstep with ht | ⟨_, _, ht⟩ | ⟨k, ht⟩ | ⟨_, _, _, _, _, heffect⟩
  · rw [ht]; exact hs
  · rw [ht]; exact .cleared s.block (obufAfterReset_wf _) (obufAfterReset_inRange _)
  · rw [ht]; exact hs.faultRecord k
  · exact hs.effect heffect

end Sys2Proof.Machine

namespace Sys2Proof.Machine

/-! ### `CW` and `UNC` agree (R23, R112) -/

/-- R112: after the correction all five group parities are even. -/
theorem syndrome_decodeWord (w : Word) : syndrome (decodeWord w).word = 0#5 := by
  change syndrome (correct w (syndrome w)) = 0#5
  by_cases h : syndrome w = 0#5
  · rw [h, correct_zero, h]
  · have hpos : 0 < (syndrome w).toNat := Nat.pos_of_ne_zero fun h0 => h (BitVec.eq_of_toNat_eq h0)
    have hlt := (syndrome w).isLt
    have hback : BitVec.ofNat 5 (32 - (32 - (syndrome w).toNat)) = syndrome w := by
      rw [Nat.sub_sub_self (by omega), BitVec.ofNat_toNat, BitVec.setWidth_eq]
    rw [correct_of_ne_zero w h, syndrome_xor, syndrome_bitMask _ (by omega), if_neg (by omega), hback,
      BitVec.xor_self]

theorem decodedSettled_iff (b : Block) :
    b.decodedSettled = true ↔ b.unc = overall b.cw ∧ syndrome b.cw = 0#5 := by
  rw [Block.decodedSettled, Bool.and_eq_true, beq_iff_eq, beq_iff_eq]

theorem decodedSettled_withDecoded (b : Block) (w : Word) : (b.withDecoded (decodeWord w)).decodedSettled = true :=
  (decodedSettled_iff _).mpr ⟨rfl, syndrome_decodeWord w⟩

theorem decodedSettled_of_zero {b : Block} (hcw : b.cw = 0#32) (hunc : b.unc = false) : b.decodedSettled = true := by
  rw [decodedSettled_iff, hcw, hunc]
  decide +kernel

/-- An executed `PUSHW` leaves `CW` and `UNC`, or decodes into them. -/
theorem decodedSettled_pushGroup {b b' : Block} {w : Word} (hb : b.decodedSettled = true)
    (h : pushGroup w b = .ok b') : b'.decodedSettled = true := by
  rcases pushGroup_eq_ok h with ⟨_, rfl⟩ | ⟨_, _, rfl⟩ | ⟨_, _, _, rfl⟩
  · exact hb
  · exact decodedSettled_withDecoded b (reorder w)
  · exact decodedSettled_withDecoded b (reorder w)

/-- Settles O58: `DECW` and `PUSHW` write what `decodeWord` answers, whose groups are clean (`syndrome_decodeWord`);
`BEGIN`, `CLR` and reset write zeros; nothing else writes `CW` or `UNC`. -/
theorem everyStepKeepsUncTheParityOfCw : Obligations.EveryStepKeepsUncTheParityOfCw := by
  intro s t hs hstep
  rcases step_block_cases hstep with ht | ⟨_, _, ht⟩ | ⟨k, ht⟩ | ⟨_, _, i, _, _, heffect⟩
  · rw [ht]; exact hs
  · rw [ht]; exact decodedSettled_of_zero rfl rfl
  · rw [ht]; exact hs
  · rcases blockEffect_cases heffect with ⟨_, ht⟩ | ⟨size, _, _, ht⟩ | ⟨w, _, _, hpush⟩ | ⟨_, _, hclose⟩ |
      ⟨w, _, ht⟩ | ht
    · rw [ht]; exact decodedSettled_of_zero rfl rfl
    · rw [ht]; exact decodedSettled_of_zero rfl rfl
    · exact decodedSettled_pushGroup hs hpush
    · obtain ⟨n, _, ht⟩ := closePacket_eq_ok hclose
      rw [ht]; exact hs
    · rw [ht]; exact decodedSettled_withDecoded _ w
    · rw [ht]; exact hs

end Sys2Proof.Machine

namespace Sys2Proof.Machine

/-! ### What each command writes (R20) -/

/-- R20: the registers that `PUSHW` does not write, and that it counts in any case. -/
theorem pushGroup_frame {b b' : Block} {w : Word} (h : pushGroup w b = .ok b') :
    b'.active = b.active ∧ b'.done = b.done ∧ b'.olen = b.olen ∧ b'.size = b.size ∧ b'.faulted = b.faulted ∧
    b'.err = b.err ∧ b'.wcnt = b.wcnt + 1 := by
  rcases pushGroup_eq_ok h with ⟨_, rfl⟩ | ⟨_, _, rfl⟩ | ⟨_, _, _, rfl⟩ <;> simp

/-- R28: `PUSHW` never clears `INVALID`. -/
theorem pushGroup_keeps_invalid {b b' : Block} {w : Word} (h : pushGroup w b = .ok b') (hb : b.invalid = true) :
    b'.invalid = true := by
  rcases pushGroup_eq_ok h with ⟨_, rfl⟩ | ⟨_, _, rfl⟩ | ⟨hvalid, _, _, rfl⟩
  · exact hb
  · rfl
  · exact absurd (hb.symm.trans hvalid) (by simp)

/-- Settles O51: a refusal writes nothing, a fault entry only the fault record, and each of the five writing commands
only the registers of its row. -/
theorem registersAreWrittenOnlyByTheirCommands : Obligations.RegistersAreWrittenOnlyByTheirCommands := by
  intro s t i h
  rcases exec_cases h with ⟨_, rfl⟩ | ⟨_, k, rfl⟩ | ⟨_, b, v, rfl, heffect⟩
  · simp
  · simp
  · rcases blockEffect_cases heffect with ⟨rfl, rfl⟩ | ⟨size, rfl, _, rfl⟩ | ⟨w, rfl, _, hpush⟩ | ⟨rfl, _, hclose⟩ |
      ⟨w, rfl, rfl⟩ | rfl
    · simp
    · simp
    · obtain ⟨hactive, hdone, holen, hsize, hfaulted, herr, _⟩ := pushGroup_frame hpush
      simp [hactive, hdone, holen, hsize, hfaulted, herr]
    · obtain ⟨n, _, rfl⟩ := closePacket_eq_ok hclose
      simp
    · simp
    · simp

/-- R25, R38 (c): an executed `PUSHW` advances `WCNT` by exactly 1. -/
theorem Block.Consistent.wcnt_pushed {b b' : Block} {w : Word} (hb : b.Consistent) (hseq : pushOutOfSequence b = false)
    (hpush : pushGroup w b = .ok b') : b'.wcnt.toNat = b.wcnt.toNat + 1 := by
  obtain ⟨_, _, _, _, _, _, hwcnt⟩ := pushGroup_frame hpush
  obtain ⟨_, hlt⟩ := hb.wcnt_lt_of_push hseq
  have hsize := hb.sizeBound
  rw [hwcnt]
  exact countGroup_wcnt_toNat (by omega)

/-- R25, R38: a step leaves `WCNT`, sets it to 0, or is a `PUSHW` and counts. -/
theorem step_wcnt {s t : State} (hs : s.block.Consistent) (hstep : step s = .next t) :
    t.block.wcnt.toNat = s.block.wcnt.toNat ∨ t.block.wcnt.toNat = 0 ∨
    (t.block.wcnt.toNat = s.block.wcnt.toNat + 1 ∧
      ∃ c rest w, s.host = .command c :: rest ∧ decode c = .ok (.pushw w)) := by
  rcases step_block_cases hstep with ht | ⟨_, _, ht⟩ | ⟨k, ht⟩ | ⟨c, rest, i, hhost, hdecode, heffect⟩
  · exact .inl (by rw [ht])
  · exact .inr (.inl (by rw [ht]; rfl))
  · exact .inl (by rw [ht])
  · rcases blockEffect_cases heffect with ⟨_, ht⟩ | ⟨size, _, _, ht⟩ | ⟨w, rfl, hseq, hpush⟩ | ⟨_, _, hclose⟩ |
      ⟨w, _, ht⟩ | ht
    · exact .inr (.inl (by rw [ht]; rfl))
    · exact .inr (.inl (by rw [ht]; rfl))
    · exact .inr (.inr ⟨hs.wcnt_pushed hseq hpush, c, rest, w, hhost, hdecode⟩)
    · obtain ⟨n, _, ht⟩ := closePacket_eq_ok hclose
      exact .inl (by rw [ht])
    · exact .inl (by rw [ht]; rfl)
    · exact .inl (by rw [ht])

/-- A command that answers with no error has executed (R78, R176, R178). -/
theorem blockEffect_of_no_error {i : Instr} {s t : State} (h : exec i s = .next t)
    (hok : t.response.map Response.err = some false) : blockEffect i s.block t.block := by
  rcases exec_cases h with ⟨_, rfl⟩ | ⟨_, k, rfl⟩ | ⟨_, b, v, rfl, heffect⟩
  · cases hok
  · cases hok
  · exact heffect

/-- Settles O52: the bound is R38 (c) of the next state, which the step keeps (O56). -/
theorem wcntCountsThePushedGroups : Obligations.WcntCountsThePushedGroups := by
  intro s t hs hstep
  refine ⟨(everyStepKeepsConsistency s t hs hstep).wcnt_le, step_wcnt hs hstep, ?_⟩
  intro c rest w hhost hdecode hok
  rw [step_command hhost, runCommand_of_decode_ok hdecode] at hstep
  obtain ⟨hseq, hpush⟩ := blockEffect_of_no_error hstep hok
  exact hs.wcnt_pushed hseq hpush

/-- Settles O53: of what a step can do, only a reset, `CLR` and `BEGIN` write 0 into `INVALID`. -/
theorem invalidStaysUntilBeginOrClr : Obligations.InvalidStaysUntilBeginOrClr := by
  intro s t hstep hs ht0
  have unchanged (ht : t.block.invalid = true) {p : Prop} : p := absurd (ht.symm.trans ht0) (by simp)
  rcases step_block_cases hstep with ht | ⟨rest, hhost, _⟩ | ⟨k, ht⟩ | ⟨c, rest, i, hhost, hdecode, heffect⟩
  · exact unchanged (by rw [ht]; exact hs)
  · exact .inl ⟨rest, hhost⟩
  · exact unchanged (by rw [ht]; exact hs)
  · rcases blockEffect_cases heffect with ⟨hi, _⟩ | ⟨size, hi, _⟩ | ⟨w, _, _, hpush⟩ | ⟨_, _, hclose⟩ | ⟨w, _, ht⟩ | ht
    · exact .inr ⟨c, rest, i, hhost, hdecode, .inl hi⟩
    · exact .inr ⟨c, rest, i, hhost, hdecode, .inr ⟨size, hi⟩⟩
    · exact unchanged (pushGroup_keeps_invalid hpush hs)
    · obtain ⟨n, _, ht⟩ := closePacket_eq_ok hclose
      exact unchanged (by rw [ht]; exact hs)
    · exact unchanged (by rw [ht]; exact hs)
    · exact unchanged (by rw [ht]; exact hs)

/-- R140: the block is idle exactly when no packet is open or closed. -/
theorem idle_iff (b : Block) : b.idle = true ↔ b.active = false ∧ b.done = false := by
  rw [Block.idle, Bool.and_eq_true, Bool.not_eq_true', Bool.not_eq_true']

/-- R140, R145: `END` finds a packet open and leaves one closed, so neither block is idle. -/
theorem closePacket_idle {b b' : Block} (hseq : endOutOfSequence b = false) (hclose : closePacket b = .ok b') :
    b.idle = false ∧ b'.idle = false := by
  obtain ⟨n, _, rfl⟩ := closePacket_eq_ok hclose
  rw [check_false_iff (endOutOfSequence_iff b), not_or] at hseq
  exact ⟨(check_false_iff (idle_iff b)).mpr fun h => hseq.1 h.1, rfl⟩

/-- R38 (j), R140: what a step does to idleness: nothing, or it is one of the four actions that say it. -/
theorem step_idle {s t : State} (hstep : step s = .next t) :
    t.block.idle = s.block.idle ∨
    (∃ rest, s.host = .hardwareReset :: rest) ∧ t.block.idle = true ∨
    ∃ c rest i, s.host = .command c :: rest ∧ decode c = .ok i ∧
      (i = .clr ∧ t.block.idle = true ∨ (∃ n, i = .beginPacket n) ∧ t.block.idle = false) := by
  rcases step_block_cases hstep with ht | ⟨rest, hhost, ht⟩ | ⟨k, ht⟩ | ⟨c, rest, i, hhost, hdecode, heffect⟩
  · exact .inl (by rw [ht])
  · exact .inr (.inl ⟨⟨rest, hhost⟩, by rw [ht]; rfl⟩)
  · exact .inl (by rw [ht]; rfl)
  · rcases blockEffect_cases heffect with ⟨hi, ht⟩ | ⟨size, hi, _, ht⟩ | ⟨w, _, _, hpush⟩ | ⟨_, hseq, hclose⟩ |
      ⟨w, _, ht⟩ | ht
    · exact .inr (.inr ⟨c, rest, i, hhost, hdecode, .inl ⟨hi, by rw [ht]; rfl⟩⟩)
    · exact .inr (.inr ⟨c, rest, i, hhost, hdecode, .inr ⟨⟨size, hi⟩, by rw [ht]; rfl⟩⟩)
    · obtain ⟨hactive, hdone, _⟩ := pushGroup_frame hpush
      exact .inl (by rw [Block.idle, hactive, hdone, Block.idle])
    · obtain ⟨hidle, hidle'⟩ := closePacket_idle hseq hclose
      exact .inl (hidle'.trans hidle.symm)
    · exact .inl (by rw [ht]; rfl)
    · exact .inl (by rw [ht])

/-- Settles O54: by `step_idle`, of the actions that change idleness only `BEGIN` ends it, and only `CLR` and a
hardware reset bring it about. -/
theorem idleIsLeftOnlyByBegin : Obligations.IdleIsLeftOnlyByBegin := by
  intro s t hstep
  rcases step_idle hstep with hsame | ⟨hreset, ht⟩ | ⟨c, rest, i, hhost, hdecode, ⟨rfl, ht⟩ | ⟨⟨n, rfl⟩, ht⟩⟩
  · rw [hsame]
    constructor <;> intro h h' <;> simp [h] at h'
  · exact ⟨by simp [ht], fun _ _ => .inl hreset⟩
  · exact ⟨by simp [ht], fun _ _ => .inr ⟨c, rest, hhost, hdecode⟩⟩
  · exact ⟨fun _ _ => ⟨c, rest, n, hhost, hdecode⟩, by simp [ht]⟩

end Sys2Proof.Machine

namespace Sys2Proof.Machine

/-! ### The readable registers (R33 to R37) -/

/-- A concatenation as a number. -/
theorem toNat_append_eq_add {m n : Nat} (x : BitVec m) (y : BitVec n) :
    (x ++ y).toNat = x.toNat * 2 ^ n + y.toNat := by
  rw [BitVec.toNat_append, ← Nat.shiftLeft_add_eq_or_of_lt y.isLt, Nat.shiftLeft_eq]

/-- A field of a word, read off its number. -/
theorem extractLsb'_eq_of_toNat {w : Word} {start n : Nat} {v : BitVec n}
    (h : w.toNat / 2 ^ start % 2 ^ n = v.toNat) : w.extractLsb' start n = v := by
  apply BitVec.eq_of_toNat_eq
  rw [BitVec.extractLsb'_toNat, Nat.shiftRight_eq_div_pow, h]

/-- A zero field of a word, read off its number. -/
theorem extractLsb'_eq_zero_of_toNat {w : Word} {start n : Nat} (h : w.toNat / 2 ^ start % 2 ^ n = 0) :
    w.extractLsb' start n = 0#n :=
  extractLsb'_eq_of_toNat (h.trans BitVec.toNat_zero.symm)

/-- A flag of a word, read off its number. -/
theorem getLsbD_eq_of_toNat {w : Word} {k : Nat} {c : Bool} (h : w.toNat / 2 ^ k % 2 = c.toNat) :
    w.getLsbD k = c := by
  rw [BitVec.getLsbD, Nat.testBit_eq_decide_div_mod_eq, h]
  cases c <;> rfl

/-- The formula of R34. -/
theorem statusWord_toNat (b : Block) :
    (statusWord b).toNat = b.active.toNat + 2 * b.done.toNat + 4 * b.invalid.toNat + 8 * b.faulted.toNat +
      16 * b.err.toNat + 128 * b.unc.toNat + 256 * b.syn.toNat := by
  simp only [statusWord, flagBit, toNat_append_eq_add, BitVec.toNat_ofBool, BitVec.toNat_ofNat]
  omega

/-- R35 as a formula. -/
theorem packWord_toNat (b : Block) :
    (packWord b).toNat = b.ocnt.toNat + 2 ^ 16 * b.rcnt.toNat + 2 ^ 24 * b.res.toNat := by
  simp only [packWord, toNat_append_eq_add, BitVec.toNat_ofNat]
  omega

/-- Settles O10: every field of the reset block is 0, and the words by their formulas. -/
theorem resetLeavesEveryRegisterZero : Obligations.ResetLeavesEveryRegisterZero := by
  refine ⟨rfl, rfl, rfl, rfl, rfl, rfl, rfl, rfl, rfl, rfl, rfl, rfl, rfl, rfl, ?_, ?_⟩
  · exact BitVec.eq_of_toNat_eq (statusWord_toNat _)
  · exact BitVec.eq_of_toNat_eq (packWord_toNat _)

/-- Settles O13: each field is the digits of the formula of R34 at its place. -/
theorem statusWordLayout : Obligations.StatusWordLayout := by
  intro b
  have hformula := statusWord_toNat b
  have herr := b.err.isLt
  have hsyn := b.syn.isLt
  have hactive := b.active.toNat_le
  have hdone := b.done.toNat_le
  have hinvalid := b.invalid.toNat_le
  have hfaulted := b.faulted.toNat_le
  have hunc := b.unc.toNat_le
  refine ⟨getLsbD_eq_of_toNat ?_, getLsbD_eq_of_toNat ?_, getLsbD_eq_of_toNat ?_, getLsbD_eq_of_toNat ?_,
    extractLsb'_eq_of_toNat ?_, getLsbD_eq_of_toNat ?_, extractLsb'_eq_of_toNat ?_, extractLsb'_eq_zero_of_toNat ?_,
    hformula⟩ <;> rw [hformula] <;> omega

/-- Settles O14: each field is the digits of `packWord_toNat` at its place. -/
theorem packWordLayout : Obligations.PackWordLayout := by
  intro b
  have hformula := packWord_toNat b
  have hocnt := b.ocnt.isLt
  have hrcnt := b.rcnt.isLt
  have hres := b.res.isLt
  refine ⟨extractLsb'_eq_of_toNat ?_, extractLsb'_eq_zero_of_toNat ?_, extractLsb'_eq_of_toNat ?_,
    extractLsb'_eq_zero_of_toNat ?_, extractLsb'_eq_of_toNat ?_, extractLsb'_eq_zero_of_toNat ?_⟩ <;>
    rw [hformula] <;> omega

/-- R162: a register number that names a register answers it. -/
theorem exec_rdr_of_readRegister {n : BitVec 3} {s : State} {v : Word} (h : readRegister n s.block = some v) :
    exec (.rdr n) s = .next (respond s.block v s) := by
  simp only [exec, execRdr, h]

/-- Settles O15: a register number other than 7 names a register (`readRegister_eq_none_iff`), and the row of R33 says
which. -/
theorem rdrAnswersTheRegister : Obligations.RdrAnswersTheRegister := by
  intro s n hn
  obtain ⟨v, hv⟩ := Option.ne_none_iff_exists'.mp fun hnone => hn ((readRegister_eq_none_iff n s.block).mp hnone)
  have row {u : Word} (hu : readRegister n s.block = some u) : v = u := Option.some.inj (hv.symm.trans hu)
  refine ⟨v, exec_rdr_of_readRegister hv, ?_, ?_, ?_, ?_, ?_, ?_, ?_⟩ <;> rintro rfl
  · exact row rfl
  · exact row rfl
  · rw [row (u := s.block.size.setWidth 32) rfl, BitVec.toNat_setWidth_of_le (by decide)]
  · rw [row (u := s.block.wcnt.setWidth 32) rfl, BitVec.toNat_setWidth_of_le (by decide)]
  · rw [row (u := s.block.olen.setWidth 32) rfl, BitVec.toNat_setWidth_of_le (by decide)]
  · exact row rfl
  · exact row rfl

/-- Settles O55: every register of the reset block is 0, and its buffer lists nothing. -/
theorem resetIsConsistent : Obligations.ResetIsConsistent :=
  ⟨Block.Consistent.cleared Block.reset Memory.wf_nil Memory.inRange_nil, decodedSettled_of_zero rfl rfl⟩

end Sys2Proof.Machine

namespace Sys2Proof.Machine

/-! ### Two machines that differ in stale output bytes only (R32, U18) -/

theorem Block.Alike.registers {b c : Block} (h : b.Alike c) : b.registers = c.registers := h.1

theorem Block.Alike.read {b c : Block} (h : b.Alike c) (a : Nat) (ha : a < b.ocnt.toNat) :
    Memory.read b.obuf a = Memory.read c.obuf a := h.2 a ha

theorem State.Alike.block {s t : State} (h : s.Alike t) : s.block.Alike t.block := h.1

theorem State.Alike.response {s t : State} (h : s.Alike t) : s.response = t.response := h.2.1

theorem State.Alike.host {s t : State} (h : s.Alike t) : s.host = t.host := h.2.2

/-- What reads the registers alone is the same for alike blocks. -/
theorem Block.Alike.eq_of_registers {α : Type} {b c : Block} (h : b.Alike c) (f : Block → α)
    (hf : ∀ b, f b.registers = f b) : f b = f c := by
  rw [← hf b, h.registers, hf c]

/-- An operation that writes registers from registers, leaves `OBUF` and does not raise `OCNT` keeps blocks alike. -/
theorem Block.Alike.map {b c : Block} (h : b.Alike c) (f : Block → Block)
    (hregisters : ∀ b, (f b).registers = (f b.registers).registers) (hobuf : ∀ b, (f b).obuf = b.obuf)
    (hocnt : ∀ b, (f b).ocnt.toNat ≤ b.ocnt.toNat) : (f b).Alike (f c) := by
  refine ⟨by rw [hregisters b, h.registers, hregisters c], fun a ha => ?_⟩
  rw [hobuf, hobuf]
  exact h.read a (lt_of_lt_of_le ha (hocnt b))

/-- No output byte is written for the present packet while `OCNT` is 0. -/
theorem Block.Alike.of_ocnt_zero {b c : Block} (hregisters : b.registers = c.registers) (hocnt : b.ocnt = 0) :
    b.Alike c :=
  ⟨hregisters, fun a ha => by rw [hocnt] at ha; exact absurd ha (Nat.not_lt_zero a)⟩

theorem Block.Alike.statusWord {b c : Block} (h : b.Alike c) : statusWord b = statusWord c :=
  h.eq_of_registers Machine.statusWord fun _ => rfl

theorem Block.Alike.withDecoded {b c : Block} (h : b.Alike c) (d : Decoded) :
    (b.withDecoded d).Alike (c.withDecoded d) :=
  h.map (·.withDecoded d) (fun _ => rfl) (fun _ => rfl) fun _ => le_rfl

theorem Block.Alike.countGroup {b c : Block} (h : b.Alike c) : (countGroup b).Alike (countGroup c) :=
  h.map Machine.countGroup (fun _ => rfl) (fun _ => rfl) fun _ => le_rfl

theorem Block.Alike.openPacket {b c : Block} (h : b.Alike c) (size : BitVec 10) :
    (openPacket size b).Alike (openPacket size c) :=
  h.map (Machine.openPacket size) (fun _ => rfl) (fun _ => rfl) fun _ => Nat.zero_le _

/-- Below `OCNT` a command reads the same byte (R147). -/
theorem Block.Alike.loadByte {b c : Block} (h : b.Alike c) {a : Nat} (ha : a < b.ocnt.toNat) :
    loadByte b a = loadByte c a := by
  simp only [Machine.loadByte, h.read a ha]

/-- R131: the packer writes the bytes it adds to `OCNT`, and they depend on registers alone. -/
theorem Block.Alike.appended {b c : Block} (h : b.Alike c) (hb : Memory.wf b.obuf = true)
    (hc : Memory.wf c.obuf = true) (d : Data) : (b.appended d).Alike (c.appended d) := by
  have hregisters : ∀ b : Block, (b.appended d).registers = (b.registers.appended d).registers := fun _ => rfl
  have haddress : packAddress b = packAddress c := h.eq_of_registers packAddress fun _ => rfl
  have hbytes : packBytes b d = packBytes c d := h.eq_of_registers (packBytes · d) fun _ => rfl
  refine ⟨by rw [hregisters b, h.registers, hregisters c], fun a ha => ?_⟩
  change Memory.read (Memory.writeBytes b.obuf (packAddress b) (packBytes b d)) a =
    Memory.read (Memory.writeBytes c.obuf (packAddress c) (packBytes c d)) a
  rw [← haddress, ← hbytes, Memory.read_writeBytes _ _ hb, Memory.read_writeBytes _ _ hc]
  split
  · rfl
  · rename_i houtside
    have hle : (b.appended d).ocnt.toNat ≤ packAddress b + packCount b := by
      change (BitVec.ofNat 9 (b.ocnt.toNat + packCount b)).toNat ≤ _
      rw [BitVec.toNat_ofNat]
      exact Nat.mod_le _ _
    rw [packBytes_length] at houtside
    have hbelow : a < packAddress b := by omega
    exact h.read a hbelow

/-- Two computations of a block that answer alike when the first answers. -/
def BlockAnswersAlike (r q : Except Fault Block) : Prop :=
  ∀ b, r = .ok b → ∃ c, q = .ok c ∧ b.Alike c

theorem BlockAnswersAlike.of_alike {b c : Block} (h : b.Alike c) : BlockAnswersAlike (.ok b) (.ok c) := by
  rintro _ ⟨⟩
  exact ⟨c, rfl, h⟩

theorem append_alike {b c : Block} (h : b.Alike c) (hb : Memory.wf b.obuf = true) (hc : Memory.wf c.obuf = true)
    (d : Data) : BlockAnswersAlike (append d b) (append d c) := by
  intro b' hb'
  obtain ⟨hle, rfl⟩ := append_eq_ok_iff.mp hb'
  have hend : packAddress b + packCount b = packAddress c + packCount c :=
    h.eq_of_registers (fun b => packAddress b + packCount b) fun _ => rfl
  exact ⟨c.appended d, append_eq_ok_iff.mpr ⟨hend ▸ hle, rfl⟩, h.appended hb hc d⟩

theorem takeDecoded_alike {b c : Block} (h : b.Alike c) (hb : Memory.wf b.obuf = true) (hc : Memory.wf c.obuf = true)
    (d : Decoded) : BlockAnswersAlike (takeDecoded d b) (takeDecoded d c) := by
  unfold takeDecoded
  split
  · exact .of_alike ((h.withDecoded d).map (fun b => { b with invalid := true }) (fun _ => rfl) (fun _ => rfl)
      fun _ => le_rfl)
  · exact append_alike (h.withDecoded d) hb hc _

theorem pushGroup_alike {b c : Block} (h : b.Alike c) (hb : Memory.wf b.obuf = true) (hc : Memory.wf c.obuf = true)
    (w : Word) : BlockAnswersAlike (pushGroup w b) (pushGroup w c) := by
  have hinvalid : b.invalid = c.invalid := h.eq_of_registers Block.invalid fun _ => rfl
  unfold pushGroup
  rw [← hinvalid]
  split
  · exact .of_alike h.countGroup
  · exact takeDecoded_alike h.countGroup hb hc _

/-- R132: the trim reads bytes below `OCNT` only. -/
theorem closedLength_alike {b c : Block} (h : b.Alike c) : closedLength b = closedLength c := by
  have hinvalid : b.invalid = c.invalid := h.eq_of_registers Block.invalid fun _ => rfl
  have hsize : b.size = c.size := h.eq_of_registers Block.size fun _ => rfl
  have hocnt : b.ocnt = c.ocnt := h.eq_of_registers Block.ocnt fun _ => rfl
  have htrim : trimCount (Memory.read b.obuf) b.ocnt.toNat = trimCount (Memory.read c.obuf) b.ocnt.toNat :=
    trailingZeros_congr _ h.read
  rw [closedLength, closedLength, htrim, hinvalid, hsize, hocnt]

theorem closePacket_alike {b c : Block} (h : b.Alike c) : BlockAnswersAlike (closePacket b) (closePacket c) := by
  unfold closePacket
  rw [← closedLength_alike h]
  cases closedLength b with
  | error f => exact nofun
  | ok n =>
    exact .of_alike (h.map (fun b => { b with active := false, done := true, olen := BitVec.ofNat 9 n })
      (fun _ => rfl) (fun _ => rfl) fun _ => le_rfl)

/-- Two answers of a command that are alike when the first is a next state. -/
def AnswersAlike (r q : Result) : Prop := ∀ s, r = .next s → ∃ t, q = .next t ∧ s.Alike t

theorem AnswersAlike.of_alike {s t : State} (h : s.Alike t) : AnswersAlike (.next s) (.next t) := by
  rintro _ ⟨⟩
  exact ⟨t, rfl, h⟩

section Port
variable {s t : State} (h : s.Alike t)
include h

theorem respond_alike {b c : Block} (hbc : b.Alike c) (v : Word) : (respond b v s).Alike (respond c v t) :=
  ⟨hbc, rfl, h.host⟩

theorem respondStatus_alike {b c : Block} (hbc : b.Alike c) : (respondStatus b s).Alike (respondStatus c t) := by
  rw [respondStatus, respondStatus, hbc.statusWord]
  exact respond_alike h hbc _

theorem refuse_alike : (refuse s).Alike (refuse t) :=
  ⟨h.block, congrArg (fun v => some (Response.mk v true)) h.block.statusWord, h.host⟩

theorem faultEntry_alike (k : Cause) : (faultEntry k s).Alike (faultEntry k t) := by
  have hblock : (faultEntry k s).block.Alike (faultEntry k t).block :=
    h.block.map (fun b => { b with faulted := true, err := k.code }) (fun _ => rfl) (fun _ => rfl) fun _ => le_rfl
  exact ⟨hblock, congrArg (fun v => some (Response.mk v true)) hblock.statusWord, h.host⟩

theorem faulted_alike : s.block.faulted = t.block.faulted := h.block.eq_of_registers Block.faulted fun _ => rfl

theorem raiseFault_alike (k : Cause) : (raiseFault k s).Alike (raiseFault k t) := by
  unfold raiseFault
  rw [← faulted_alike h]
  split
  · exact refuse_alike h
  · exact faultEntry_alike h k

theorem finish_alike {r q : Except Fault Block} (hrq : BlockAnswersAlike r q) :
    AnswersAlike (finish r s) (finish q t) := by
  intro s' hs'
  obtain ⟨b, rfl, rfl⟩ := finish_eq_next hs'
  obtain ⟨c, rfl, hbc⟩ := hrq b rfl
  exact ⟨_, rfl, respondStatus_alike h hbc⟩

theorem gated_alike {r q : Result} (hrq : AnswersAlike r q) : AnswersAlike (gated s r) (gated t q) := by
  unfold gated
  rw [← faulted_alike h]
  split
  · exact .of_alike (refuse_alike h)
  · exact hrq

/-- A check that reads registers alone, and what the command does where it passes. -/
theorem checked_alike {check : Block → Bool} (hcheck : ∀ b, check b.registers = check b) (k : Cause) {r q : Result}
    (hrq : check s.block = false → AnswersAlike r q) :
    AnswersAlike (gated s (if check s.block then .next (raiseFault k s) else r))
      (gated t (if check t.block then .next (raiseFault k t) else q)) := by
  refine gated_alike h ?_
  rw [← h.block.eq_of_registers check hcheck]
  split
  · exact .of_alike (raiseFault_alike h k)
  · rename_i hpass
    exact hrq (by simpa using hpass)

theorem answer_alike (v : Word) : AnswersAlike (answer v s) (answer v t) :=
  gated_alike h (.of_alike (respond_alike h h.block v))

theorem execRdr_alike (n : BitVec 3) : AnswersAlike (execRdr n s) (execRdr n t) := by
  unfold execRdr
  rw [← h.block.eq_of_registers (readRegister n) fun _ => rfl]
  split
  · exact .of_alike (respond_alike h h.block _)
  · exact .of_alike (raiseFault_alike h .illegal)

/-- R147, R148: a readable index is below `OLEN`, so below `OCNT`. -/
theorem execRdb_alike (hs : s.Consistent) (index : BitVec 9) :
    AnswersAlike (execRdb index s) (execRdb index t) := by
  refine checked_alike (check := byteNotAvailable index) h (fun _ => rfl) .notAvail fun hpass => ?_
  rw [check_false_iff (byteNotAvailable_iff index s.block)] at hpass
  have hwritten : index.toNat < s.block.ocnt.toNat :=
    lt_of_lt_of_le (by omega) (Block.Consistent.readableWritten hs)
  rw [← h.block.loadByte hwritten]
  cases loadByte s.block index.toNat with
  | ok v => exact .of_alike (respond_alike h h.block _)
  | error f => exact nofun

/-- Every command answers alike on consistent machines that are alike. -/
theorem exec_alike (hs : s.Consistent) (ht : t.Consistent) (i : Instr) : AnswersAlike (exec i s) (exec i t) := by
  cases i with
  | nop => exact gated_alike h (.of_alike (respondStatus_alike h h.block))
  | clr => exact .of_alike (respondStatus_alike h (.of_ocnt_zero rfl rfl))
  | beginPacket size =>
    exact checked_alike (check := fun _ => sizeMalformed size) h (fun _ => rfl) .malformed fun _ =>
      .of_alike (respondStatus_alike h (h.block.openPacket size))
  | pushw w =>
    exact checked_alike h (fun _ => rfl) .sequence fun _ =>
      finish_alike h (pushGroup_alike h.block hs.bufferCanonical ht.bufferCanonical w)
  | endPacket => exact checked_alike h (fun _ => rfl) .sequence fun _ => finish_alike h (closePacket_alike h.block)
  | rdb index => exact execRdb_alike h hs index
  | rdr n => exact execRdr_alike h n
  | decw w => exact gated_alike h (.of_alike (respond_alike h (h.block.withDecoded _) _))
  | bswap w => exact answer_alike h (bswap32 w)
  | brev8 w => exact answer_alike h (brev8x4 w)
  | reord w => exact answer_alike h (reorder w)
  | pchk w => exact answer_alike h ((pcheck w).setWidth 32)
  | xtr w => exact answer_alike h ((extract26 w).setWidth 32)
  | reserved7 _ | reservedE _ | reservedF _ => exact .of_alike (raiseFault_alike h .illegal)

/-- Hardware reset makes `OCNT` 0, so its free bytes are stale (R37, log 5). -/
theorem hardwareReset_alike : (hardwareReset s).Alike (hardwareReset t) :=
  ⟨.of_ocnt_zero rfl rfl, rfl, h.host⟩

/-- The host's list is the same on both sides and no part of the block. -/
theorem withHost_alike (rest : List HostAction) : State.Alike { s with host := rest } { t with host := rest } :=
  ⟨h.block, h.response, rfl⟩

end Port

/-- Settles O59: whatever the host's next action is, both machines take it and answer alike; for a command this is
`exec_alike`. -/
theorem staleOutputBytesAreUnobservable : Obligations.StaleOutputBytesAreUnobservable := by
  intro s t s' hs ht h hstep
  have hhost := h.host
  rcases step_cases hstep with ⟨hnil, hs'⟩ | ⟨rest, hreset, hs'⟩ | ⟨c, rest, i, hcommand, hdecode, hs'⟩ |
    ⟨c, rest, e, hcommand, hdecode, hs'⟩
  · cases hs'
    exact ⟨t, step_nil (hhost ▸ hnil), h⟩
  · cases hs'
    exact ⟨_, step_hardwareReset (hhost ▸ hreset), hardwareReset_alike (withHost_alike h rest)⟩
  · rw [step_command (hhost ▸ hcommand), runCommand_of_decode_ok hdecode]
    exact exec_alike (withHost_alike h rest) hs ht i s' hs'.symm
  · cases hs'
    rw [step_command (hhost ▸ hcommand), runCommand, hdecode]
    exact ⟨_, rfl, raiseFault_alike (withHost_alike h rest) .illegal⟩

end Sys2Proof.Machine

namespace Sys2Proof.Machine

/-! ### The wire groups of a payload (R51) -/

/-- R51: group `g` is made of the bytes at the offsets `4g` to `4g + 3`, in the order received. -/
theorem wireGroups_getElem? : ∀ (p : List Byte) (g : Nat), 4 * g + 3 < p.length →
    (wireGroups p)[g]? = some (wireGroup (p.getD (4 * g) 0) (p.getD (4 * g + 1) 0) (p.getD (4 * g + 2) 0)
      (p.getD (4 * g + 3) 0))
  | _ :: _ :: _ :: _ :: _, 0, _ => rfl
  | _ :: _ :: _ :: _ :: rest, g + 1, h =>
    wireGroups_getElem? rest g (by simp only [List.length_cons] at h; omega)
  | [], _, h | [_], _, h | [_, _], _, h | [_, _, _], _, h => by
    simp only [List.length_cons, List.length_nil] at h
    omega

/-- R51 as a formula: the operand is the number whose base-256 digits are the bytes, the first received leading. -/
theorem wireGroup_toNat (b0 b1 b2 b3 : Byte) :
    (wireGroup b0 b1 b2 b3).toNat = 2 ^ 24 * b0.toNat + 2 ^ 16 * b1.toNat + 2 ^ 8 * b2.toNat + b3.toNat := by
  simp only [wireGroup, toNat_append_eq_add]
  omega

/-- R51: each byte of the group is a field of the operand. -/
theorem wireGroup_bytes (b0 b1 b2 b3 : Byte) :
    (wireGroup b0 b1 b2 b3).extractLsb' 24 8 = b0 ∧ (wireGroup b0 b1 b2 b3).extractLsb' 16 8 = b1 ∧
    (wireGroup b0 b1 b2 b3).extractLsb' 8 8 = b2 ∧ (wireGroup b0 b1 b2 b3).extractLsb' 0 8 = b3 := by
  have hformula := wireGroup_toNat b0 b1 b2 b3
  have hb0 := b0.isLt
  have hb1 := b1.isLt
  have hb2 := b2.isLt
  have hb3 := b3.isLt
  refine ⟨extractLsb'_eq_of_toNat ?_, extractLsb'_eq_of_toNat ?_, extractLsb'_eq_of_toNat ?_,
    extractLsb'_eq_of_toNat ?_⟩ <;> rw [hformula] <;> omega

/-- The index convention of R6 inside a byte of a word: the byte's lowest bit has the index `31 - lo`, so the index
`i` that lies `k` bits after its most significant one is its bit `7 - k`. -/
theorem bitAt_eq_getLsbD_of_extractLsb' {w : Word} {b : Byte} {lo i k : Nat} (hbyte : w.extractLsb' lo 8 = b)
    (hk : k < 8) (hi : lo + i = 24 + k) : bitAt w i = b.getLsbD (7 - k) := by
  have hplace : lo + (7 - k) = 31 - i := by omega
  have hin : 7 - k < 8 := by omega
  rw [← hbyte, BitVec.getLsbD_extractLsb', hplace, decide_eq_true hin, Bool.true_and, bitAt]

/-- Settles O7: the bytes are fields of the operand (`wireGroup_bytes`), and a bit of the operand is a bit of its
byte. -/
theorem wireGroupsAssembleBigEndian : Obligations.WireGroupsAssembleBigEndian := by
  refine ⟨wireGroups_getElem?, fun b0 b1 b2 b3 => ?_⟩
  obtain ⟨hb0, hb1, hb2, hb3⟩ := wireGroup_bytes b0 b1 b2 b3
  refine ⟨hb0, hb1, hb2, hb3, fun k hk => ⟨?_, ?_, ?_, ?_⟩⟩
  · exact bitAt_eq_getLsbD_of_extractLsb' hb0 hk rfl
  · exact bitAt_eq_getLsbD_of_extractLsb' hb1 hk (by omega)
  · exact bitAt_eq_getLsbD_of_extractLsb' hb2 hk (by omega)
  · exact bitAt_eq_getLsbD_of_extractLsb' hb3 hk (by omega)

end Sys2Proof.Machine

namespace Sys2Proof.Machine

/-! ### Encoding and decoding are inverse (R70 to R73, R76, R79) -/

/-- R71 to R73: the two fields a command is encoded into decode to it; a field of the low bits, zero-extended, leaves
its reserved bits 0 (`fieldOf_setWidth`). -/
theorem decodeFields_opcode_operand (i : Instr) : decodeFields (opcode i) (operand i) = .ok i := by
  cases i with
  | nop | clr | endPacket => rfl
  | beginPacket size => exact fieldOf_setWidth (by decide) _ size .beginPacket
  | rdb index => exact fieldOf_setWidth (by decide) _ index .rdb
  | rdr n => exact fieldOf_setWidth (by decide) _ n .rdr
  | pushw _ | bswap _ | brev8 _ | reord _ | pchk _ | decw _ | xtr _ => rfl
  | reserved7 _ | reservedE _ | reservedF _ => rfl

/-- Settles O2: the word's two fields are the command's opcode and operand. -/
theorem decodeOfEncodeIsTheCommand : Obligations.DecodeOfEncodeIsTheCommand := by
  intro i
  rw [encode, decode_commandWord, decodeFields_opcode_operand]

/-- Settles O3: the fields of a word that decodes are the command's (`decodeFields_eq_ok`), and they make up the
word. -/
theorem encodeOfDecodeIsTheWord : Obligations.EncodeOfDecodeIsTheWord := by
  intro c i h
  obtain ⟨hop, harg⟩ := decodeFields_eq_ok h
  rw [encode, ← hop, ← harg, commandWord_fields]

/-- Settles O1: each example word is the encoding of the command beside it (O2). -/
theorem exampleWordsDecode : Obligations.ExampleWordsDecode :=
  have word := decodeOfEncodeIsTheCommand
  ⟨word .nop, word .clr, word (.beginPacket 512#10), word (.pushw 0xA0000000#32), word .endPacket,
    word (.rdb 415#9), word (.rdr 6#3), word (.bswap 0x11223344#32), word (.brev8 0x01020408#32),
    word (.reord 0x00000001#32), word (.pchk 0x00000003#32), word (.decw 0x00000003#32), word (.xtr 0xFFFFFFFF#32)⟩

end Sys2Proof.Machine

namespace Sys2Proof.Machine

/-! ### The decoder and the rows of the opcode table (R82) -/

/-- R71, R73: how many low bits of the operand the format of an opcode uses; the bits above are reserved. -/
def operandWidth (op : BitVec 4) : Nat :=
  if op = 0x0#4 ∨ op = 0x1#4 ∨ op = 0x4#4 then 0
  else if op = 0x2#4 then 10
  else if op = 0x5#4 then 9
  else if op = 0x6#4 then 3
  else 32

/-- R82: a row's mask is the opcode field and the reserved operand bits of its format. -/
theorem rowMask_eq (i : Instr) :
    rowMask i = commandWord (BitVec.allOnes 4) (BitVec.allOnes 32 <<< operandWidth (opcode i)) := by
  cases i <;> simp only [rowMask, opcode] <;> decide

/-- R82: a row's match is the opcode with every operand bit 0. -/
theorem rowMatch_eq (i : Instr) : rowMatch i = commandWord (opcode i) 0#32 := by
  cases i <;> simp only [rowMatch, opcode] <;> decide

theorem commandWord_and (op m : BitVec 4) (arg n : Word) :
    commandWord op arg &&& commandWord m n = commandWord (op &&& m) (arg &&& n) :=
  BitVec.and_append

theorem commandWord_inj {op op' : BitVec 4} {arg arg' : Word} :
    commandWord op arg = commandWord op' arg' ↔ op = op' ∧ arg = arg' := by
  refine ⟨fun h => ⟨?_, ?_⟩, fun ⟨hop, harg⟩ => by rw [hop, harg]⟩
  · rw [← opcodeOf_commandWord op arg, h, opcodeOf_commandWord]
  · rw [← argOf_commandWord op arg, h, argOf_commandWord]

/-- The reserved bits are 0 exactly when the mask of the bits from `n` up meets no bit of the operand. -/
theorem reservedZero_iff_and_mask (n : Nat) (arg : Word) :
    reservedZero n arg = true ↔ arg &&& BitVec.allOnes 32 <<< n = 0#32 := by
  have hle : arg.toNat / 2 ^ n * 2 ^ n < 2 ^ 32 := lt_of_le_of_lt (Nat.div_mul_le_self _ _) arg.isLt
  rw [reservedZero_iff_lt, ← BitVec.shiftLeft_ushiftRight, ← BitVec.toNat_inj, BitVec.toNat_shiftLeft,
    BitVec.toNat_ushiftRight, Nat.shiftLeft_eq, Nat.shiftRight_eq_div_pow, Nat.mod_eq_of_lt hle, BitVec.toNat_zero,
    Nat.mul_eq_zero, or_iff_left (by positivity), Nat.div_eq_zero_iff, or_iff_right (by positivity)]

/-- R82: a word selects a row exactly when it has the row's opcode and its reserved bits are 0. -/
theorem selectsRow_iff (c : CommandWord) (i : Instr) :
    selectsRow c i = true ↔
      opcodeOf c = opcode i ∧ reservedZero (operandWidth (opcode i)) (argOf c) = true := by
  rw [selectsRow, beq_iff_eq, rowMask_eq, rowMatch_eq]
  conv_lhs => rw [← commandWord_fields c]
  rw [commandWord_and, commandWord_inj, BitVec.and_allOnes, reservedZero_iff_and_mask]

/-- No operand bit is reserved in format W (R71). -/
theorem reservedZero_32 (arg : Word) : reservedZero 32 arg = true :=
  (reservedZero_iff_lt arg).mpr arg.isLt

/-- R75: the reserved bits of the opcode's format alone decide whether the fields decode. -/
theorem decodeFields_error_iff_reserved (op : BitVec 4) (arg : Word) :
    (∃ e, decodeFields op arg = .error e) ↔ reservedZero (operandWidth op) arg = false := by
  rw [decodeFields_error_iff]
  rcases opcode_cases op with h | h | h | h | h | h | h | h | h | h | h | h | h | h | h | h <;> subst h <;>
    simp [operandWidth, reservedZero_32]

theorem decodeFields_ok_iff_reserved (op : BitVec 4) (arg : Word) :
    (∃ j, decodeFields op arg = .ok j) ↔ reservedZero (operandWidth op) arg = true := by
  rw [← Bool.not_eq_false, ← decodeFields_error_iff_reserved]
  cases decodeFields op arg <;> simp

/-- R73, R82: the row a word selects is that of the command it decodes to. -/
theorem selectsRow_iff_decode (c : CommandWord) (i : Instr) :
    selectsRow c i = true ↔ ∃ j, decode c = .ok j ∧ opcode j = opcode i := by
  rw [selectsRow_iff]
  constructor
  · rintro ⟨hop, hreserved⟩
    obtain ⟨j, hj⟩ := (decodeFields_ok_iff_reserved (opcodeOf c) (argOf c)).mpr (hop ▸ hreserved)
    obtain ⟨hopj, -⟩ := decodeFields_eq_ok hj
    exact ⟨j, hj, hopj.symm.trans hop⟩
  · rintro ⟨j, hj, hopj⟩
    obtain ⟨hop, -⟩ := decodeFields_eq_ok hj
    have hopi := hop.trans hopj
    exact ⟨hopi, hopi ▸ (decodeFields_ok_iff_reserved (opcodeOf c) (argOf c)).mp ⟨j, hj⟩⟩

/-- Settles O4: the first half is `selectsRow_iff_decode`; a word that is rejected therefore selects no row, and one
that decodes selects its command's. -/
theorem decoderAgreesWithTheTable : Obligations.DecoderAgreesWithTheTable := by
  intro c
  refine ⟨selectsRow_iff_decode c, ?_⟩
  cases hdecode : decode c with
  | error e =>
    refine iff_of_true ⟨e, rfl⟩ fun i => (check_false_iff (selectsRow_iff_decode c i)).mpr ?_
    simp [hdecode]
  | ok j =>
    refine iff_of_false nofun fun hnone => ?_
    exact absurd ((selectsRow_iff_decode c j).mpr ⟨j, hdecode, rfl⟩) (by simp [hnone j])

end Sys2Proof.Machine

namespace Sys2Proof.Machine

/-! ### The command words that raise a fault (R74, R75) -/

/-- The step on an issued word runs the word. -/
theorem step_issue (c : CommandWord) (s : State) : step (issue c s) = runCommand c s :=
  step_command rfl

/-- R81 (6): the step on a word whose fields decode is the command's meaning. -/
theorem step_issue_of_ok {op : BitVec 4} {arg : Word} {i : Instr} (h : decodeFields op arg = .ok i) (s : State) :
    step (issue (op ++ arg) s) = exec i s :=
  runCommand_of_decode_ok ((decode_commandWord op arg).trans h) s

/-- R75: the step on a word with a reserved bit set is fault entry with `ILLEGAL`. -/
theorem step_issue_of_reserved {op : BitVec 4} {arg : Word} {s : State} (hs : s.block.faulted = false)
    (h : reservedZero (operandWidth op) arg = false) : step (issue (op ++ arg) s) = .next (faultEntry .illegal s) := by
  obtain ⟨e, he⟩ := (decodeFields_error_iff_reserved op arg).mpr h
  have hdecode : decode (op ++ arg) = .error e := (decode_commandWord op arg).trans he
  simp only [step_issue, runCommand, hdecode, rejectWord, raiseFault_of_not_faulted hs]

/-- The reserved bits as a slice of the operand (R71). -/
theorem reservedZero_iff_extractLsb' {n m : Nat} (hnm : n + m = 32) (arg : Word) :
    reservedZero n arg = true ↔ arg.extractLsb' n m = 0#m := by
  have hlt : arg.toNat / 2 ^ n < 2 ^ m := by
    rw [Nat.div_lt_iff_lt_mul (by positivity), ← pow_add, Nat.add_comm m n, hnm]
    exact arg.isLt
  rw [reservedZero, beq_iff_eq, ← BitVec.toNat_inj, ← BitVec.toNat_inj, BitVec.toNat_ushiftRight,
    BitVec.extractLsb'_toNat, Nat.shiftRight_eq_div_pow, Nat.mod_eq_of_lt hlt]
  rfl

theorem reservedZero_zero_iff (arg : Word) : reservedZero 0 arg = true ↔ arg = 0#32 := by
  rw [reservedZero, beq_iff_eq, BitVec.ushiftRight_zero]

/-- An operand whose reserved bits are 0 decodes to its field, which has the operand's value (R72). -/
theorem fieldOf_of_reservedZero {n : Nat} {arg : Word} (h : reservedZero n arg = true) (op : BitVec 4)
    (f : BitVec n → Instr) : fieldOf op n arg f = .ok (f (arg.setWidth n)) := by
  rw [fieldOf, if_pos h]

theorem toNat_setWidth_of_reservedZero {n : Nat} {arg : Word} (h : reservedZero n arg = true) :
    (arg.setWidth n).toNat = arg.toNat := by
  rw [BitVec.toNat_setWidth, Nat.mod_eq_of_lt ((reservedZero_iff_lt arg).mp h)]

/-- With no fault standing, a command whose check fails enters its fault (R81). -/
theorem gated_check_of_fails {s : State} (hs : s.block.faulted = false) {check : Bool} (h : check = true) (k : Cause)
    (r : Result) : gated s (if check then .next (raiseFault k s) else r) = .next (faultEntry k s) := by
  rw [gated_of_not_faulted hs, if_pos h, raiseFault_of_not_faulted hs]

section Unfaulted
variable {s : State} (hs : s.block.faulted = false)
include hs

/-- R172: a malformed size. -/
theorem execBegin_malformed {size : BitVec 10} (h : 512 < size.toNat ∨ size.toNat % 4 ≠ 0) :
    execBegin size s = .next (faultEntry .malformed s) :=
  gated_check_of_fails hs ((sizeMalformed_iff size).mpr h) .malformed _

/-- R175: an index with no readable byte. -/
theorem execRdb_notAvail {index : BitVec 9}
    (h : s.block.done = false ∨ s.block.invalid = true ∨ s.block.olen.toNat ≤ index.toNat) :
    execRdb index s = .next (faultEntry .notAvail s) :=
  gated_check_of_fails hs ((byteNotAvailable_iff index s.block).mpr h) .notAvail _

/-- R75: the reserved register number. -/
theorem execRdr_seven : execRdr 7#3 s = .next (faultEntry .illegal s) := by
  rw [execRdr, (readRegister_eq_none_iff 7#3 s.block).mpr rfl, raiseFault_of_not_faulted hs]

/-- R75: `RDR` with the reserved number raises `ILLEGAL` whether or not a reserved bit is set as well. -/
theorem step_issue_rdr_seven {arg : Word} (h : arg.extractLsb' 0 3 = 7#3) :
    step (issue (0x6#4 ++ arg) s) = .next (faultEntry .illegal s) := by
  cases hreserved : reservedZero 3 arg with
  | false => exact step_issue_of_reserved hs hreserved
  | true =>
    have hfield : arg.setWidth 3 = 7#3 := by rw [← h, BitVec.setWidth_eq_extractLsb' (by decide)]
    rw [step_issue_of_ok (op := 0x6#4) (fieldOf_of_reservedZero hreserved _ .rdr), hfield]
    exact execRdr_seven hs

end Unfaulted

/-- Settles O5: a reserved bit makes the decoder reject the word (`step_issue_of_reserved`); without one the word
decodes to a field of the operand's value, and the command's own check fails. -/
theorem reservedBitsRaiseIllegal : Obligations.ReservedBitsRaiseIllegal := by
  intro s op arg hs
  refine ⟨?_, ?_, ?_⟩
  · rintro (⟨hop, harg⟩ | ⟨rfl, harg⟩ | ⟨rfl, harg⟩ | ⟨rfl, harg | harg⟩)
    · have hwidth : operandWidth op = 0 := if_pos hop
      exact step_issue_of_reserved hs (hwidth ▸ (check_false_iff (reservedZero_zero_iff arg)).mpr harg)
    · exact step_issue_of_reserved hs ((check_false_iff (reservedZero_iff_extractLsb' rfl arg)).mpr harg)
    · exact step_issue_of_reserved hs ((check_false_iff (reservedZero_iff_extractLsb' rfl arg)).mpr harg)
    · exact step_issue_of_reserved hs ((check_false_iff (reservedZero_iff_extractLsb' rfl arg)).mpr harg)
    · exact step_issue_rdr_seven hs harg
  · rintro rfl harg hsize
    have hreserved : reservedZero 10 arg = true := (reservedZero_iff_extractLsb' rfl arg).mpr harg
    rw [step_issue_of_ok (op := 0x2#4) (fieldOf_of_reservedZero hreserved _ .beginPacket)]
    exact execBegin_malformed hs (by rwa [toNat_setWidth_of_reservedZero hreserved])
  · rintro rfl harg hindex
    have hreserved : reservedZero 9 arg = true := (reservedZero_iff_extractLsb' rfl arg).mpr harg
    rw [step_issue_of_ok (op := 0x5#4) (fieldOf_of_reservedZero hreserved _ .rdb)]
    exact execRdb_notAvail hs (.inr (.inr (by rwa [toNat_setWidth_of_reservedZero hreserved])))

/-- Settles O6: every word with a reserved opcode decodes, and each of the three commands raises `ILLEGAL`. -/
theorem reservedOpcodesRaiseIllegal : Obligations.ReservedOpcodesRaiseIllegal := by
  intro s x hs
  have hraise : Host.Outcome.next (raiseFault .illegal s) = (.next (faultEntry .illegal s) : Result) := by
    rw [raiseFault_of_not_faulted hs]
  refine ⟨hraise, hraise, hraise, ?_⟩
  rintro op (rfl | rfl | rfl)
  · exact (step_issue_of_ok (i := .reserved7 x) rfl s).trans hraise
  · exact (step_issue_of_ok (i := .reservedE x) rfl s).trans hraise
  · exact (step_issue_of_ok (i := .reservedF x) rfl s).trans hraise

end Sys2Proof.Machine

namespace Sys2Proof.Machine

/-! ### Every command answers (R78) -/

/-- A gated command answers when it does past the gate. -/
theorem gated_answers {s : State} {r : Result} (h : ∃ t, r = .next t) : ∃ t, gated s r = .next t := by
  cases hf : s.block.faulted with
  | true => exact ⟨_, gated_of_faulted hf r⟩
  | false => rwa [gated_of_not_faulted hf]

/-- A gated command with a check answers when it does past both. -/
theorem gated_check_answers {s : State} {check : Bool} {k : Cause} {r : Result}
    (h : check = false → ∃ t, r = .next t) :
    ∃ t, gated s (if check then .next (raiseFault k s) else r) = .next t := by
  refine gated_answers ?_
  cases check with
  | true => exact ⟨_, rfl⟩
  | false => exact h rfl

theorem finish_answers {r : Except Fault Block} (h : ∃ b, r = .ok b) (s : State) : ∃ t, finish r s = .next t := by
  obtain ⟨b, rfl⟩ := h
  exact ⟨_, rfl⟩

/-- R38 (f), R50: in sequence, `PUSHW` never writes past the end of `OBUF`. -/
theorem Block.Consistent.pushGroup_answers {b : Block} (hb : b.Consistent) (hseq : pushOutOfSequence b = false)
    (w : Word) : ∃ b', pushGroup w b = .ok b' := by
  unfold pushGroup takeDecoded
  split
  · exact ⟨_, rfl⟩
  split
  · exact ⟨_, rfl⟩
  · rename_i hinvalid _
    obtain ⟨hactive, hlt⟩ := hb.wcnt_lt_of_push hseq
    have hsize := hb.sizeBound
    obtain ⟨hocnt, hrcnt⟩ := hb.packerInStep hactive (by simpa using hinvalid)
    obtain ⟨-, -, hbound⟩ := packer_in_step hocnt hrcnt (by omega)
    exact ⟨_, append_of_le hbound⟩

/-- R38 (g), R50: `END` never reads past the end of `OBUF`. -/
theorem Block.Consistent.closePacket_answers {b : Block} (hb : b.Consistent) : ∃ b', closePacket b = .ok b' := by
  have hlength : ∃ n, closedLength b = .ok n := by
    unfold closedLength
    rw [if_pos (show b.ocnt.toNat ≤ Config.maxOut from hb.writtenBound)]
    split
    · exact ⟨_, rfl⟩
    · split <;> exact ⟨_, rfl⟩
  obtain ⟨n, hn⟩ := hlength
  exact ⟨_, by rw [closePacket, hn]⟩

/-- R38 (g), R50: a readable byte exists. -/
theorem Block.Consistent.loadByte_answers {b : Block} (hb : b.Consistent) {index : BitVec 9}
    (h : byteNotAvailable index b = false) : loadByte b index.toNat = .ok (Memory.read b.obuf index.toNat) := by
  rw [check_false_iff (byteNotAvailable_iff index b)] at h
  have hreadable := hb.readableWritten
  have hwritten := hb.writtenBound
  have hlt : index.toNat < 416 := by omega
  exact loadByte_of_lt hlt

/-- Every command answers a next state from a consistent state. -/
theorem exec_answers {s : State} (hs : s.Consistent) (i : Instr) : ∃ t, exec i s = .next t := by
  have hb : s.block.Consistent := hs
  cases i with
  | clr => exact ⟨_, rfl⟩
  | rdr n =>
    change ∃ t, execRdr n s = .next t
    unfold execRdr
    split <;> exact ⟨_, rfl⟩
  | beginPacket size => exact gated_check_answers fun _ => ⟨_, rfl⟩
  | pushw w => exact gated_check_answers fun hseq => finish_answers (hb.pushGroup_answers hseq w) s
  | endPacket => exact gated_check_answers fun _ => finish_answers hb.closePacket_answers s
  | rdb index => exact gated_check_answers fun hpass => ⟨_, by rw [hb.loadByte_answers hpass]⟩
  | nop | bswap _ | brev8 _ | reord _ | pchk _ | decw _ | xtr _ => exact gated_answers ⟨_, rfl⟩
  | reserved7 _ | reservedE _ | reservedF _ => exact ⟨_, rfl⟩

/-- R78: a next state of a command holds a response, and no command touches the host's list or the reset counter
(log 1, log 5). -/
theorem exec_port {i : Instr} {s t : State} (h : exec i s = .next t) :
    (∃ r, t.response = some r) ∧ t.host = s.host ∧ t.resets = s.resets := by
  rcases exec_cases h with ⟨_, rfl⟩ | ⟨_, k, rfl⟩ | ⟨_, b, v, rfl, _⟩ <;> exact ⟨⟨_, rfl⟩, rfl, rfl⟩

/-- R75, R78: a raised fault, too, holds a response and leaves the host's list and the reset counter. -/
theorem raiseFault_port (k : Cause) (s : State) :
    (∃ r, (raiseFault k s).response = some r) ∧ (raiseFault k s).host = s.host ∧
      (raiseFault k s).resets = s.resets := by
  obtain ⟨f, e, h⟩ := raiseFault_spec k s
  rw [h]
  exact ⟨⟨_, rfl⟩, rfl, rfl⟩

/-- Settles O9: a word that decodes is answered by its command (`exec_answers`), any other by the raised fault. -/
theorem everyCommandResponds : Obligations.EveryCommandResponds := by
  intro s c hs
  rw [step_issue]
  cases hdecode : decode c with
  | ok i =>
    obtain ⟨t, ht⟩ := exec_answers hs i
    obtain ⟨⟨r, hr⟩, hhost, hresets⟩ := exec_port ht
    exact ⟨t, r, (runCommand_of_decode_ok hdecode s).trans ht, hr, hhost, hresets⟩
  | error e =>
    obtain ⟨⟨r, hr⟩, hhost, hresets⟩ := raiseFault_port .illegal s
    exact ⟨_, r, by rw [runCommand, hdecode, rejectWord], hr, hhost, hresets⟩

/-! ### The commands that answer `STATUS` (R78, first row) -/

/-- The response on the port is the block's `STATUS`. -/
def State.ShowsStatus (t : State) : Prop := ∃ e, t.response = some { rsp := statusWord t.block, err := e }

theorem respondStatus_showsStatus {b : Block} {s t : State} (h : (.next (respondStatus b s) : Result) = .next t) :
    t.ShowsStatus := by
  cases h
  exact ⟨false, rfl⟩

theorem refuse_showsStatus (s : State) : (refuse s).ShowsStatus := ⟨true, rfl⟩

theorem raiseFault_showsStatus (k : Cause) (s : State) : (raiseFault k s).ShowsStatus := by
  obtain ⟨f, e, h⟩ := raiseFault_spec k s
  rw [h]
  exact ⟨true, rfl⟩

theorem finish_showsStatus {r : Except Fault Block} {s t : State} (h : finish r s = .next t) : t.ShowsStatus := by
  obtain ⟨b, -, rfl⟩ := finish_eq_next h
  exact respondStatus_showsStatus rfl

theorem gated_showsStatus {s t : State} {r : Result} (hr : r = .next t → t.ShowsStatus) (h : gated s r = .next t) :
    t.ShowsStatus := by
  rcases gated_cases h with ⟨_, ht⟩ | ⟨_, ht⟩
  · cases ht
    exact refuse_showsStatus s
  · exact hr ht.symm

theorem gated_check_showsStatus {s t : State} {check : Bool} {k : Cause} {r : Result}
    (hr : r = .next t → t.ShowsStatus) (h : gated s (if check then .next (raiseFault k s) else r) = .next t) :
    t.ShowsStatus := by
  refine gated_showsStatus (fun ht => ?_) h
  cases check with
  | true =>
    cases ht
    exact raiseFault_showsStatus k s
  | false => exact hr ht

/-- Settles O16: each of the five ends in `respondStatus`, behind the gate and its own check where it has them. -/
theorem statusCommandsAnswerStatusAfter : Obligations.StatusCommandsAnswerStatusAfter := by
  rintro s t i (rfl | rfl | ⟨size, rfl⟩ | ⟨w, rfl⟩ | rfl) h
  · exact gated_showsStatus respondStatus_showsStatus h
  · exact respondStatus_showsStatus h
  · exact gated_check_showsStatus respondStatus_showsStatus h
  · exact gated_check_showsStatus finish_showsStatus h
  · exact gated_check_showsStatus finish_showsStatus h

end Sys2Proof.Machine

namespace Sys2Proof.Machine

/-! ### The reordering unit (R90 to R96) -/

/-- With no fault standing, a unit command that writes no state answers its value (R150). -/
theorem answer_of_not_faulted {s : State} (h : s.block.faulted = false) (v : Word) :
    answer v s = .next { s with response := some { rsp := v, err := false } } :=
  gated_of_not_faulted h _

/-- A word assembled from the bytes `f 3` to `f 0` has `f j` as its byte `j`. Where it is used for a word that
`wireGroup` only unfolds to, it is elaborated by itself, `(… :)`, so that `f` is known before the words are compared. -/
theorem wireGroup_byte (f : Nat → Byte) {j : Nat} (hj : j < 4) :
    (wireGroup (f 3) (f 2) (f 1) (f 0)).extractLsb' (8 * j) 8 = f j := by
  obtain ⟨h3, h2, h1, h0⟩ := wireGroup_bytes (f 3) (f 2) (f 1) (f 0)
  match j, hj with
  | 0, _ => exact h0
  | 1, _ => exact h1
  | 2, _ => exact h2
  | 3, _ => exact h3

/-- Bit `k` of byte `j` of a word is its bit `8 j + k`. -/
theorem getLsbD_byte (w : Word) (j : Nat) {k : Nat} (hk : k < 8) :
    (w.extractLsb' (8 * j) 8).getLsbD k = w.getLsbD (8 * j + k) := by
  rw [BitVec.getLsbD_extractLsb', decide_eq_true hk, Bool.true_and]

/-- A bit of a word is a bit of one of its four bytes. -/
theorem exists_byte_bit {n : Nat} (hn : n < 32) : ∃ j k, j < 4 ∧ k < 8 ∧ n = 8 * j + k :=
  ⟨n / 8, n % 8, by omega, by omega, by omega⟩

/-- Words with the same four bytes are equal. -/
theorem eq_of_bytes_eq {v w : Word} (h : ∀ j < 4, v.extractLsb' (8 * j) 8 = w.extractLsb' (8 * j) 8) : v = w := by
  refine BitVec.eq_of_getLsbD_eq fun n hn => ?_
  obtain ⟨j, k, hj, hk, rfl⟩ := exists_byte_bit hn
  rw [← getLsbD_byte v j hk, h j hj, getLsbD_byte w j hk]

theorem rev8_rev8 (b : Byte) : rev8 (rev8 b) = b := BitVec.reverse_reverse_eq

/-- R90, bit by bit. -/
theorem getLsbD_rev8 (b : Byte) {k : Nat} (hk : k < 8) : (rev8 b).getLsbD k = b.getLsbD (7 - k) := by
  rw [rev8, BitVec.getLsbD_reverse, BitVec.getMsbD_eq_getLsbD, decide_eq_true hk, Bool.true_and]

/-- R91: output byte `j` is input byte `3 - j`. -/
theorem bswap32_byte (w : Word) {j : Nat} (hj : j < 4) :
    (bswap32 w).extractLsb' (8 * j) 8 = w.extractLsb' (8 * (3 - j)) 8 :=
  (wireGroup_byte (fun j => w.extractLsb' (8 * (3 - j)) 8) hj :)

/-- R92: each byte is reversed where it is. -/
theorem brev8x4_byte (w : Word) {j : Nat} (hj : j < 4) :
    (brev8x4 w).extractLsb' (8 * j) 8 = rev8 (w.extractLsb' (8 * j) 8) :=
  (wireGroup_byte (fun j => rev8 (w.extractLsb' (8 * j) 8)) hj :)

/-- R92, bit by bit. -/
theorem getLsbD_brev8x4 (w : Word) {j k : Nat} (hj : j < 4) (hk : k < 8) :
    (brev8x4 w).getLsbD (8 * j + k) = w.getLsbD (8 * j + (7 - k)) := by
  rw [← getLsbD_byte _ j hk, brev8x4_byte w hj, getLsbD_rev8 _ hk, getLsbD_byte w j (by omega)]

theorem bswap32_bswap32 (w : Word) : bswap32 (bswap32 w) = w := by
  refine eq_of_bytes_eq fun j hj => ?_
  have hmirror : 3 - (3 - j) = j := by omega
  rw [bswap32_byte _ hj, bswap32_byte w (by omega), hmirror]

theorem brev8x4_brev8x4 (w : Word) : brev8x4 (brev8x4 w) = w :=
  eq_of_bytes_eq fun j hj => by rw [brev8x4_byte _ hj, brev8x4_byte w hj, rev8_rev8]

/-- R93: the two steps commute: both ways, byte `j` is input byte `3 - j` reversed. -/
theorem brev8x4_bswap32 (w : Word) : brev8x4 (bswap32 w) = bswap32 (brev8x4 w) :=
  eq_of_bytes_eq fun j hj => by
    rw [brev8x4_byte _ hj, bswap32_byte w hj, bswap32_byte _ hj, brev8x4_byte w (by omega)]

/-- The two steps of `reorder` commute, so each meets its own inverse. -/
theorem reorder_reorder (w : Word) : reorder (reorder w) = w :=
  calc reorder (reorder w) = brev8x4 (bswap32 (bswap32 (brev8x4 w))) := by
        rw [reorder, reorder, brev8x4_bswap32 w]
    _ = w := by rw [bswap32_bswap32, brev8x4_brev8x4]

/-- R93: the reversal of all 32 bits. A bit's place in its byte is mirrored, and so is the byte's place in the word. -/
theorem getLsbD_reorder (w : Word) {n : Nat} (hn : n < 32) : (reorder w).getLsbD n = w.getLsbD (31 - n) := by
  obtain ⟨j, k, hj, hk, rfl⟩ := exists_byte_bit hn
  have hmirror : 31 - (8 * j + k) = 8 * (3 - j) + (7 - k) := by omega
  have hk' : 7 - k < 8 := by omega
  rw [hmirror, reorder, getLsbD_brev8x4 _ hj hk, ← getLsbD_byte _ j hk', bswap32_byte w hj, getLsbD_byte w _ hk']

/-- R93 in the numbering of R6. -/
theorem bitAt_reorder (w : Word) {i : Nat} (hi : i < 32) : bitAt (reorder w) i = bitAt w (31 - i) :=
  getLsbD_reorder w (by omega)

/-- Settles O23: the command answers `bswap32 w`, whose bytes are the mirrored ones (`bswap32_byte`). -/
theorem bswapAnswersTheMirror : Obligations.BswapAnswersTheMirror :=
  fun _ w hs => ⟨bswap32 w, answer_of_not_faulted hs _, fun _ hj => bswap32_byte w hj⟩

/-- Settles O24: the command answers `brev8x4 w`, whose bits `getLsbD_brev8x4` gives. -/
theorem brev8ReversesEachByte : Obligations.Brev8ReversesEachByte :=
  fun _ w hs => ⟨brev8x4 w, answer_of_not_faulted hs _, fun _ hj _ hk => getLsbD_brev8x4 w hj hk⟩

/-- Settles O25: the command answers `reorder w`, the reversal in either numbering (`getLsbD_reorder`,
`bitAt_reorder`). -/
theorem reordReversesAllBits : Obligations.ReordReversesAllBits :=
  fun _ w hs =>
    ⟨reorder w, answer_of_not_faulted hs _, fun _ hn => getLsbD_reorder w hn, fun _ hi => bitAt_reorder w hi⟩

/-- Settles O26: equality of words byte by byte (`eq_of_bytes_eq`) gives the inverses and that the steps commute. -/
theorem transformsAreCommutingInvolutions : Obligations.TransformsAreCommutingInvolutions := by
  refine ⟨fun b => ⟨rev8_rev8 b, fun _ hk => getLsbD_rev8 b hk⟩, fun w => ?_, fun w => ?_, fun w => ?_⟩
  · exact ⟨bswap32_bswap32 w, rfl, fun _ hj => bswap32_byte w hj⟩
  · exact ⟨brev8x4_brev8x4 w, rfl, fun _ hj => brev8x4_byte w hj⟩
  · exact ⟨reorder_reorder w, rfl, brev8x4_bswap32 w, fun _ hi => bitAt_reorder w hi,
      fun _ hn => getLsbD_reorder w hn⟩

end Sys2Proof.Machine

namespace Sys2Proof.Machine

/-! ### The parity-check matrix: the six parities of a word (R100 to R105) -/

theorem xorBelow_succ_eq_head (f : Nat → Bool) (n : Nat) :
    xorBelow f (n + 1) = (f 0 ^^ xorBelow (fun k => f (k + 1)) n) := by
  induction n with
  | zero => rfl
  | succ n ih => rw [xorBelow, ih, Bool.xor_left_comm]; rfl

/-- Counting from the most significant end (R6) takes the XOR in the other order. -/
theorem xorBelow_mirror (f : Nat → Bool) (n : Nat) : xorBelow (fun i => f (n - 1 - i)) n = xorBelow f n := by
  induction n generalizing f with
  | zero => rfl
  | succ n ih =>
    have hlow : xorBelow (fun i => f (n - i)) n = xorBelow (fun i => f (n - 1 - i + 1)) n :=
      xorBelow_congr fun i hi => congrArg f (by omega)
    rw [Nat.add_sub_cancel, xorBelow, Nat.sub_self, hlow, ih fun k => f (k + 1), xorBelow_succ_eq_head]

/-- R7 in the numbering of R6. -/
theorem parity_eq_xorBelow_bitAt (w : Word) : parity w = xorBelow (fun i => bitAt w i) 32 :=
  (xorBelow_mirror w.getLsbD 32).symm

/-- R101: the mask of a group holds the indexes that R100 puts into it. -/
theorem bitAt_groupMask (g : Group) : ∀ i < 32, bitAt (groupMask g) i = covers g i := by
  cases g <;> decide

/-- R102: a group's parity is the XOR of the bits at the indexes that R100 puts into the group. -/
theorem hgroup_eq_xorBelow_covers (g : Group) (w : Word) :
    hgroup g w = xorBelow (fun i => covers g i && bitAt w i) 32 := by
  rw [hgroup, parity_eq_xorBelow_bitAt]
  refine xorBelow_congr fun i hi => ?_
  rw [← bitAt_groupMask g i hi, Bool.and_comm]
  exact BitVec.getLsbD_and

/-- R104: the six rows of `H` in the order of the bits. -/
theorem getLsbD_pcheck (w : Word) :
    (pcheck w).getLsbD 0 = hgroup .g1 w ∧ (pcheck w).getLsbD 1 = hgroup .g2 w ∧
    (pcheck w).getLsbD 2 = hgroup .g4 w ∧ (pcheck w).getLsbD 3 = hgroup .g8 w ∧
    (pcheck w).getLsbD 4 = hgroup .g16 w ∧ (pcheck w).getLsbD 5 = overall w := by
  rw [pcheck]
  generalize overall w = q, hgroup .g16 w = a, hgroup .g8 w = b, hgroup .g4 w = c, hgroup .g2 w = d, hgroup .g1 w = e
  revert q a b c d e
  decide

/-- Settles O27: the response is `pcheck w`, zero-extended; its bits are the parities (`getLsbD_pcheck`), which
`hgroup_eq_xorBelow_covers` and `parity_eq_xorBelow_bitAt` give from R100's membership. -/
theorem pchkAnswersTheSixParities : Obligations.PchkAnswersTheSixParities := by
  intro s w hs
  have hlow : ∀ k < 6, ((pcheck w).setWidth 32).getLsbD k = (pcheck w).getLsbD k := fun k hk => by
    rw [BitVec.getLsbD_setWidth, decide_eq_true (show k < 32 by omega), Bool.true_and]
  have hhigh : ((pcheck w).setWidth 32).extractLsb' 6 26 = 0#26 := by
    refine BitVec.eq_of_getLsbD_eq fun k _ => ?_
    rw [BitVec.getLsbD_extractLsb', BitVec.getLsbD_setWidth, BitVec.getLsbD_of_ge _ _ (Nat.le_add_right 6 k),
      Bool.and_false, Bool.and_false, BitVec.getLsbD_zero]
  obtain ⟨h1, h2, h4, h8, h16, hall⟩ := getLsbD_pcheck w
  simp only [← hgroup_eq_xorBelow_covers, ← parity_eq_xorBelow_bitAt]
  exact ⟨(pcheck w).setWidth 32, answer_of_not_faulted hs _, (hlow 0 (by decide)).trans h1,
    (hlow 1 (by decide)).trans h2, (hlow 2 (by decide)).trans h4, (hlow 3 (by decide)).trans h8,
    (hlow 4 (by decide)).trans h16, (hlow 5 (by decide)).trans hall, hhigh⟩

/-! ### The parity-check matrix: linearity (R104) -/

theorem pcheck_xor (a b : Word) : pcheck (a ^^^ b) = pcheck a ^^^ pcheck b := by
  have hflag : flagBit (overall a ^^ overall b) = flagBit (overall a) ^^^ flagBit (overall b) :=
    BitVec.ofBool_xor_ofBool.symm
  rw [pcheck_eq, pcheck_eq, pcheck_eq, overall_xor, syndrome_xor, hflag]
  exact BitVec.xor_append.symm

theorem pcheck_zero : pcheck 0#32 = 0#6 := by
  have h := pcheck_xor 0#32 0#32
  rwa [BitVec.xor_self, BitVec.xor_self] at h

/-- R104: the columns of `H`: the overall bit, and below it the Hamming position, which index 0 does not have. -/
theorem toNat_pcheck_bitMask {i : Nat} (hi : i < 32) : (pcheck (bitMask i)).toNat = 32 + hammingPos i % 32 := by
  rw [pcheck_eq, overall_bitMask i hi, syndrome_bitMask i hi, toNat_append_eq_add, hammingPos]
  by_cases h0 : i = 0
  · subst h0
    rfl
  · rw [if_neg h0, BitVec.toNat_ofNat]
    rfl

/-- Settles O28: the bits are `getLsbD_pcheck`, linearity is `pcheck_xor`, the columns are `toNat_pcheck_bitMask`. -/
theorem pcheckIsLinear : Obligations.PcheckIsLinear := by
  refine ⟨getLsbD_pcheck, pcheck_xor, pcheck_zero, fun i h1 hi => ?_, toNat_pcheck_bitMask (by decide)⟩
  have hpos : hammingPos i < 32 := by
    rw [hammingPos]
    omega
  rw [toNat_pcheck_bitMask hi, Nat.mod_eq_of_lt hpos]

end Sys2Proof.Machine

namespace Sys2Proof.Machine

/-! ### One codeword for each data value (R106)

`pcheck` and `extract26` together are a linear map from 32 bits to 6 + 26 bits. A word in its kernel has no data bit,
so each group's parity is the group's own parity bit; the map is therefore injective, and so a bijection. -/

/-- An XOR with at most one bit that is not 0. -/
theorem xorBelow_eq_single {f : Nat → Bool} {j : Nat} :
    ∀ {n : Nat}, j < n → (∀ k < n, k ≠ j → f k = false) → xorBelow f n = f j
  | n + 1, hj, hother => by
    rw [xorBelow]
    by_cases hjn : j = n
    · have hrest : xorBelow f n = xorBelow (fun _ => false ^^ false) n :=
        xorBelow_congr fun k hk => hother k (by omega) (by omega)
      rw [hrest, xorBelow_xor, Bool.xor_self, Bool.xor_false, hjn]
    · rw [hother n (by omega) (Ne.symm hjn), Bool.false_xor]
      exact xorBelow_eq_single (by omega) fun k hk => hother k (by omega)

/-- R126: the `k`-th data index holds bit `25 - k` of the data. -/
theorem getLsbD_extract26 (w : Word) : ∀ k < 26, (extract26 w).getLsbD (25 - k) = bitAt w (dataIndexes.getD k 0) := by
  have hplace : ∀ k < 26, 31 - dataIndexes.getD k 0 =
      if 25 - k < 1 then 2 else if 25 - k < 4 then 25 - k + 3 else if 25 - k < 11 then 25 - k + 4 else 25 - k + 5 := by
    decide
  intro k hk
  have hk26 : 25 - k < 26 := by omega
  rw [extract26_bit, bitAt, hplace k hk, if_pos hk26]
  split_ifs <;> rfl

/-- A word whose data is 0 is 0 at every data index. -/
theorem bitAt_of_extract26_eq_zero {w : Word} (h : extract26 w = 0#26) {i : Nat} (hi : i ∈ dataIndexes) :
    bitAt w i = false := by
  obtain ⟨k, hk, rfl⟩ := List.mem_iff_getElem.mp hi
  rw [← List.getD_eq_getElem _ 0 hk, ← getLsbD_extract26 w k hk, h, BitVec.getLsbD_zero]

/-- R100: the one parity index that a group covers is its own. -/
theorem covers_parity_index (g : Group) :
    covers g (32 - groupWeight g) = true ∧
      ∀ i < 32, i ≠ 32 - groupWeight g → i ∉ dataIndexes → covers g i = false := by
  cases g <;> decide

/-- With the data 0, a group's parity is the group's own parity bit (R102). -/
theorem hgroup_of_extract26_eq_zero {w : Word} (h : extract26 w = 0#26) (g : Group) :
    hgroup g w = bitAt w (32 - groupWeight g) := by
  obtain ⟨hown, hother⟩ := covers_parity_index g
  have hlt : 32 - groupWeight g < 32 := by cases g <;> decide
  rw [hgroup_eq_xorBelow_covers, xorBelow_eq_single hlt, hown, Bool.true_and]
  intro i hi hne
  by_cases hdata : i ∈ dataIndexes
  · rw [bitAt_of_extract26_eq_zero h hdata, Bool.and_false]
  · rw [hother i hi hne hdata, Bool.false_and]

/-- The parity indexes are index 0 and each group's own index (R125). -/
theorem parityIndexes_cases : ∀ i ∈ parityIndexes, i = 0 ∨ ∃ g : Group, i = 32 - groupWeight g := by
  intro i hi
  simp only [parityIndexes, List.mem_cons, List.not_mem_nil, or_false] at hi
  rcases hi with h | h | h | h | h | h
  · exact .inl h
  · exact .inr ⟨.g16, h⟩
  · exact .inr ⟨.g8, h⟩
  · exact .inr ⟨.g4, h⟩
  · exact .inr ⟨.g2, h⟩
  · exact .inr ⟨.g1, h⟩

theorem hgroup_of_syndrome_eq_zero {w : Word} (h : syndrome w = 0#5) (g : Group) : hgroup g w = false := by
  have hclean : ∀ a b c d e : Bool, positionOf a b c d e = 0#5 →
      a = false ∧ b = false ∧ c = false ∧ d = false ∧ e = false := by decide
  rw [syndrome_eq_positionOf] at h
  obtain ⟨h1, h2, h4, h8, h16⟩ := hclean _ _ _ _ _ h
  cases g <;> assumption

theorem eq_zero_of_bitAt {w : Word} (h : ∀ i < 32, bitAt w i = false) : w = 0#32 := by
  refine BitVec.eq_of_getLsbD_eq fun n hn => ?_
  have hbit := h (31 - n) (by omega)
  rwa [bitAt, Nat.sub_sub_self (by omega), ← BitVec.getLsbD_zero (w := 32) (i := n)] at hbit

/-- A codeword whose data is 0 is 0: the groups' parity bits are 0 because the groups are clean, and then the overall
parity is the bit at index 0. -/
theorem codeword_eq_zero_of_extract26 {w : Word} (hw : isCodeword w = true) (hdata : extract26 w = 0#26) :
    w = 0#32 := by
  obtain ⟨hsyn, hall⟩ := (isCodeword_iff w).mp hw
  have hbits : ∀ i < 32, i ≠ 0 → bitAt w i = false := fun i hi h0 => by
    rcases List.mem_append.mp ((indexes_partition.2 i).mp hi) with hp | hd
    · rcases parityIndexes_cases i hp with rfl | ⟨g, rfl⟩
      · exact absurd rfl h0
      · rw [← hgroup_of_extract26_eq_zero hdata g, hgroup_of_syndrome_eq_zero hsyn]
    · exact bitAt_of_extract26_eq_zero hdata hd
  have hzero : bitAt w 0 = false := by
    rw [← hall, overall, parity_eq_xorBelow_bitAt, xorBelow_eq_single (by decide) hbits]
  refine eq_zero_of_bitAt fun i hi => ?_
  by_cases h0 : i = 0
  · rw [h0, hzero]
  · exact hbits i hi h0

theorem extract26_xor (a b : Word) : extract26 (a ^^^ b) = extract26 a ^^^ extract26 b := by
  refine BitVec.eq_of_getLsbD_eq fun n _ => ?_
  simp only [BitVec.getLsbD_xor, extract26_bit]
  split_ifs <;> rfl

theorem isCodeword_iff_pcheck (w : Word) : isCodeword w = true ↔ pcheck w = 0#6 := beq_iff_eq

/-- The check bits and the data of a word, side by side. -/
def checkAndData (w : Word) : Word := pcheck w ++ extract26 w

theorem checkAndData_eq_iff (w : Word) (c : BitVec 6) (d : Data) :
    checkAndData w = c ++ d ↔ pcheck w = c ∧ extract26 w = d := by
  refine ⟨fun h => ⟨?_, ?_⟩, fun ⟨hc, hd⟩ => by rw [checkAndData, hc, hd]⟩
  · rw [← BitVec.extractLsb'_append_eq_left (a := c) (b := d), ← h, checkAndData,
      BitVec.extractLsb'_append_eq_left]
  · rw [← BitVec.extractLsb'_append_eq_right (a := c) (b := d), ← h, checkAndData,
      BitVec.extractLsb'_append_eq_right]

/-- Two words with the same check bits and data differ by a codeword with data 0. -/
theorem checkAndData_injective : Function.Injective checkAndData := by
  intro a b h
  obtain ⟨hcheck, hdata⟩ := (checkAndData_eq_iff a _ _).mp h
  refine BitVec.xor_eq_zero_iff.mp (codeword_eq_zero_of_extract26 ?_ ?_)
  · rw [isCodeword_iff_pcheck, pcheck_xor, hcheck, BitVec.xor_self]
  · rw [extract26_xor, hdata, BitVec.xor_self]

/-- Settles O29: `checkAndData` is injective on the 32-bit words and so a bijection; the codeword of `d` is the one
word it takes to check bits 0 and data `d`. -/
theorem oneCodewordForEachData : Obligations.OneCodewordForEachData := by
  intro d
  obtain ⟨w, hw⟩ := Finite.surjective_of_injective checkAndData_injective (0#6 ++ d)
  obtain ⟨hcheck, hdata⟩ := (checkAndData_eq_iff w _ _).mp hw
  refine ⟨w, ⟨(isCodeword_iff_pcheck w).mpr hcheck, hdata⟩, fun v hv hvd => checkAndData_injective ?_⟩
  rw [hw, (checkAndData_eq_iff v _ _).mpr ⟨(isCodeword_iff_pcheck v).mp hv, hvd⟩]

end Sys2Proof.Machine

namespace Sys2Proof.Machine

/-! ### The minimum distance (R106)

The difference of two codewords is a codeword. Its weight is even, for its overall parity is 0; it is not 2, for no
two columns of `H` are equal. -/

theorem xorBelow_eq_bodd_length (f : Nat → Bool) (n : Nat) :
    xorBelow f n = ((List.range n).filter f).length.bodd := by
  induction n with
  | zero => exact Nat.bodd_zero.symm
  | succ n ih =>
    rw [xorBelow, ih, List.range_succ, List.filter_append, List.length_append, Nat.bodd_add, Bool.xor_comm,
      List.filter_singleton]
    cases f n <;> simp

/-- R103: the overall parity is that of the number of 1 bits. -/
theorem overall_eq_bodd_bitWeight (w : Word) : overall w = (bitWeight w).bodd := xorBelow_eq_bodd_length _ 32

theorem mem_filter_getLsbD (w : Word) (n : Nat) :
    n ∈ (List.range 32).filter (fun n => w.getLsbD n) ↔ w.getLsbD n = true := by
  rw [List.mem_filter, List.mem_range, and_iff_right_iff_imp]
  exact BitVec.lt_of_getLsbD

theorem eq_zero_of_bitWeight_eq_zero {w : Word} (h : bitWeight w = 0) : w = 0#32 := by
  refine BitVec.eq_of_getLsbD_eq fun n hn => ?_
  rw [BitVec.getLsbD_zero, ← Bool.not_eq_true, ← mem_filter_getLsbD, List.length_eq_zero_iff.mp h]
  exact List.not_mem_nil

theorem getLsbD_bitMask (i n : Nat) : (bitMask i).getLsbD n = decide (31 - i = n) := by
  have hlt : 31 - i < 32 := by omega
  rw [bitMask, ← BitVec.twoPow_eq, BitVec.getLsbD_twoPow, decide_eq_true hlt, Bool.true_and]

/-- A word of weight 2 is the XOR of two single-bit words. -/
theorem eq_xor_bitMask_of_bitWeight_eq_two {w : Word} (h : bitWeight w = 2) :
    ∃ i j, i < 32 ∧ j < 32 ∧ i ≠ j ∧ w = bitMask i ^^^ bitMask j := by
  obtain ⟨m, n, hbits⟩ := List.length_eq_two.mp h
  have hmem : ∀ k, w.getLsbD k = true ↔ k = m ∨ k = n := fun k => by
    rw [← mem_filter_getLsbD, hbits, List.mem_pair]
  have hm : m < 32 := BitVec.lt_of_getLsbD ((hmem m).mpr (.inl rfl))
  have hn : n < 32 := BitVec.lt_of_getLsbD ((hmem n).mpr (.inr rfl))
  have hne : m ≠ n := by
    have hnodup := (List.nodup_range (n := 32)).filter fun n => w.getLsbD n
    rw [hbits] at hnodup
    simpa using hnodup
  refine ⟨31 - m, 31 - n, by omega, by omega, by omega, BitVec.eq_of_getLsbD_eq fun k hk => ?_⟩
  rw [BitVec.getLsbD_xor, getLsbD_bitMask, getLsbD_bitMask, Bool.eq_iff_iff, hmem, Bool.xor_iff_ne, Ne,
    decide_eq_decide]
  omega

/-- R104: no two columns of `H` are equal. -/
theorem pcheck_bitMask_inj {i j : Nat} (hi : i < 32) (hj : j < 32) (h : pcheck (bitMask i) = pcheck (bitMask j)) :
    i = j := by
  have hnat := congrArg BitVec.toNat h
  rw [toNat_pcheck_bitMask hi, toNat_pcheck_bitMask hj, hammingPos, hammingPos] at hnat
  omega

theorem bitWeight_ne_two_of_isCodeword {w : Word} (hw : isCodeword w = true) : bitWeight w ≠ 2 := by
  intro h
  obtain ⟨i, j, hi, hj, hne, rfl⟩ := eq_xor_bitMask_of_bitWeight_eq_two h
  rw [isCodeword_iff_pcheck, pcheck_xor, BitVec.xor_eq_zero_iff] at hw
  exact hne (pcheck_bitMask_inj hi hj hw)

theorem four_le_bitWeight_of_isCodeword {w : Word} (hw : isCodeword w = true) (hne : w ≠ 0#32) :
    4 ≤ bitWeight w := by
  have heven : bitWeight w % 2 = 0 := by
    rw [Nat.mod_two_of_bodd, ← overall_eq_bodd_bitWeight, ((isCodeword_iff w).mp hw).2]
    rfl
  have hzero : bitWeight w ≠ 0 := fun h => hne (eq_zero_of_bitWeight_eq_zero h)
  have htwo := bitWeight_ne_two_of_isCodeword hw
  omega

/-- Settles O30: the difference of the two codewords is a codeword that is not 0
(`four_le_bitWeight_of_isCodeword`). -/
theorem distinctCodewordsDifferInFourBits : Obligations.DistinctCodewordsDifferInFourBits := by
  intro a b ha hb hne
  refine four_le_bitWeight_of_isCodeword ?_ fun h => hne (BitVec.xor_eq_zero_iff.mp h)
  rw [isCodeword_iff_pcheck] at ha hb ⊢
  rw [pcheck_xor, ha, hb, BitVec.xor_self]

end Sys2Proof.Machine

namespace Sys2Proof.Machine

/-! ### The error position names the flipped bit (R111) -/

theorem bitAt_xor (a b : Word) (i : Nat) : bitAt (a ^^^ b) i = (bitAt a i ^^ bitAt b i) := BitVec.getLsbD_xor

theorem bitAt_bitMask {i j : Nat} (hi : i < 32) (hj : j < 32) : bitAt (bitMask i) j = decide (j = i) := by
  rw [bitAt, getLsbD_bitMask, decide_eq_decide]
  omega

/-- R100: a single 1 bit makes odd the groups that cover its index, and no others. -/
theorem hgroup_bitMask (g : Group) {i : Nat} (hi : i < 32) : hgroup g (bitMask i) = covers g i := by
  have hother : ∀ k < 32, k ≠ i → (covers g k && bitAt (bitMask i) k) = false := fun k hk hne => by
    rw [bitAt_bitMask hi hk, decide_eq_false hne, Bool.and_false]
  rw [hgroup_eq_xorBelow_covers, xorBelow_eq_single hi hother, bitAt_bitMask hi hi, decide_eq_true rfl, Bool.and_true]

theorem toNat_syndrome_bitMask {i : Nat} (h1 : 1 ≤ i) (hi : i < 32) : (syndrome (bitMask i)).toNat = 32 - i := by
  rw [syndrome_bitMask i hi, if_neg (by omega), BitVec.toNat_ofNat, Nat.mod_eq_of_lt (by omega)]

/-- An error leaves a codeword's error position to the error alone. -/
theorem syndrome_codeword_xor {v : Word} (hv : isCodeword v = true) (e : Word) : syndrome (v ^^^ e) = syndrome e := by
  rw [syndrome_xor, ((isCodeword_iff v).mp hv).1, BitVec.zero_xor]

theorem overall_codeword_xor {v : Word} (hv : isCodeword v = true) (e : Word) : overall (v ^^^ e) = overall e := by
  rw [overall_xor, ((isCodeword_iff v).mp hv).2, Bool.false_xor]

theorem hgroup_codeword_xor {v : Word} (hv : isCodeword v = true) (g : Group) (e : Word) :
    hgroup g (v ^^^ e) = hgroup g e := by
  rw [hgroup_xor, hgroup_of_syndrome_eq_zero ((isCodeword_iff v).mp hv).1, Bool.false_xor]

/-- Settles O31: the parities of a codeword with an error are those of the error (`syndrome_codeword_xor`,
`hgroup_codeword_xor`), here a single bit. -/
theorem syndromeNamesTheFlippedBit : Obligations.SyndromeNamesTheFlippedBit := by
  refine ⟨fun v hv i h1 hi => ?_, fun v hv i hi g => ?_, fun v hv => ?_, fun w pos h1 hpos => ?_⟩
  · rw [syndrome_codeword_xor hv, toNat_syndrome_bitMask h1 hi]
  · rw [hgroup_codeword_xor hv, hgroup_bitMask g hi]
  · exact (syndrome_codeword_xor hv _).trans (syndrome_bitMask 0 (by decide))
  · have hbit : 31 - (32 - pos) = pos - 1 := by omega
    rw [bitAt, hbit]

/-! ### The correction and the rejection (R112, R113) -/

/-- A nonzero position names an index from 1 to 31. -/
theorem index_of_position {pos : BitVec 5} (h : pos ≠ 0#5) : 1 ≤ 32 - pos.toNat ∧ 32 - pos.toNat < 32 := by
  have hpos : pos.toNat ≠ 0 := fun h0 => h (BitVec.eq_of_toNat_eq h0)
  omega

/-- R112: the correction inverts index `32 - pos` and no other. -/
theorem bitAt_correct (w : Word) {pos : BitVec 5} (h : pos ≠ 0#5) {i : Nat} (hi : i < 32) :
    bitAt (correct w pos) i = (bitAt w i ^^ decide (i = 32 - pos.toNat)) := by
  rw [correct_of_ne_zero w h, bitAt_xor, bitAt_bitMask (index_of_position h).2 hi]

theorem bitAt_correct_index_zero (w : Word) (pos : BitVec 5) : bitAt (correct w pos) 0 = bitAt w 0 := by
  by_cases h : pos = 0#5
  · rw [h, correct_zero]
  · have hne : 0 ≠ 32 - pos.toNat := Nat.ne_of_lt (index_of_position h).1
    rw [bitAt_correct w h (by decide), decide_eq_false hne, Bool.xor_false]

/-- Settles O32: `bitAt_correct` bit by bit, and `syndrome_decodeWord` for the groups. -/
theorem correctionFlipsOneBitAndCleansTheGroups : Obligations.CorrectionFlipsOneBitAndCleansTheGroups :=
  ⟨correct_zero, fun w _ hpos => ⟨if_neg hpos, fun _ hi => bitAt_correct w hpos hi⟩, bitAt_correct_index_zero,
    fun w => ⟨rfl, syndrome_decodeWord w⟩⟩

/-- R113: the flip inverts the overall parity. -/
theorem overall_correct (w : Word) (pos : BitVec 5) : overall (correct w pos) = (overall w ^^ decide (pos ≠ 0#5)) := by
  by_cases h : pos = 0#5
  · rw [h, correct_zero, decide_eq_false (not_not_intro rfl), Bool.xor_false]
  · rw [correct_of_ne_zero w h, overall_xor, overall_bitMask _ (index_of_position h).2, decide_eq_true h]

theorem unc_decodeWord (w : Word) : (decodeWord w).unc = (overall w ^^ decide (syndrome w ≠ 0#5)) :=
  overall_correct w (syndrome w)

/-- Settles O33: the first form is what `decodeWord` computes, the second is `unc_decodeWord`. -/
theorem rejectionIsParityAfterCorrection : Obligations.RejectionIsParityAfterCorrection :=
  fun w => ⟨rfl, rfl, unc_decodeWord w⟩

/-! ### The four cases of the decoder and its guarantees (R115, R116, R119) -/

/-- R115, rows 1 and 4: at position 0 the word stays as it is. -/
theorem decodeWord_of_syndrome_eq_zero {w : Word} (h : syndrome w = 0#5) :
    decodeWord w = { pos := 0#5, word := w, unc := overall w } := by
  rw [decodeWord, h, correct_zero]

/-- R115, rows 2 and 3: at another position one bit is inverted, and with it the overall parity. -/
theorem decodeWord_of_syndrome_ne_zero {w : Word} (h : syndrome w ≠ 0#5) :
    decodeWord w = { pos := syndrome w, word := w ^^^ bitMask (32 - (syndrome w).toNat), unc := !overall w } := by
  have hunc : overall (correct w (syndrome w)) = !overall w := by
    rw [overall_correct, decide_eq_true h, Bool.xor_true]
  rw [decodeWord, hunc, correct_of_ne_zero w h]

theorem isCodeword_decodeWord {w : Word} (h : (decodeWord w).unc = false) : isCodeword (decodeWord w).word = true :=
  (isCodeword_iff _).mpr ⟨syndrome_decodeWord w, h⟩

/-- R116 (a). -/
theorem decodeWord_codeword {v : Word} (hv : isCodeword v = true) :
    decodeWord v = { pos := 0#5, word := v, unc := false } := by
  obtain ⟨hsyn, hq⟩ := (isCodeword_iff v).mp hv
  rw [decodeWord_of_syndrome_eq_zero hsyn, hq]

/-- Settles O34: one equation of `decodeWord` for position 0 and one for the others, each at both parities. -/
theorem fourCasesOfDecodeWord : Obligations.FourCasesOfDecodeWord := by
  refine fun w => ⟨fun hsyn hq => ?_, fun hsyn hq => ?_, fun hsyn hq => ?_, fun hsyn hq => ?_⟩
  · have hw := (isCodeword_iff w).mpr ⟨hsyn, hq⟩
    exact ⟨decodeWord_codeword hw, hw⟩
  · have hdec := decodeWord_of_syndrome_ne_zero hsyn
    rw [hq] at hdec
    exact ⟨hdec, isCodeword_decodeWord (congrArg Decoded.unc hdec)⟩
  · rw [decodeWord_of_syndrome_ne_zero hsyn, hq, Bool.not_false]
  · rw [decodeWord_of_syndrome_eq_zero hsyn, hq]

/-- R116 (b): the position names the error, and the second flip undoes the first. -/
theorem decodeWord_single_error {v : Word} (hv : isCodeword v = true) {i : Nat} (h1 : 1 ≤ i) (hi : i < 32) :
    decodeWord (v ^^^ bitMask i) = { pos := BitVec.ofNat 5 (32 - i), word := v, unc := false } := by
  have hpos : (syndrome (v ^^^ bitMask i)).toNat = 32 - i := by
    rw [syndrome_codeword_xor hv, toNat_syndrome_bitMask h1 hi]
  have hsyn : syndrome (v ^^^ bitMask i) = BitVec.ofNat 5 (32 - i) := by
    rw [← hpos, BitVec.ofNat_toNat, BitVec.setWidth_eq]
  have hne : syndrome (v ^^^ bitMask i) ≠ 0#5 := fun h0 => by
    rw [h0, BitVec.toNat_zero] at hpos
    omega
  rw [decodeWord_of_syndrome_ne_zero hne, overall_codeword_xor hv, overall_bitMask i hi, hpos, hsyn,
    Nat.sub_sub_self (by omega), BitVec.xor_assoc, BitVec.xor_self, BitVec.xor_zero, Bool.not_true]

/-- R116 (c), R119. -/
theorem decodeWord_index_zero_error {v : Word} (hv : isCodeword v = true) :
    decodeWord (v ^^^ bitMask 0) = { pos := 0#5, word := v ^^^ bitMask 0, unc := true } := by
  have hsyn : syndrome (v ^^^ bitMask 0) = 0#5 :=
    (syndrome_codeword_xor hv _).trans (syndrome_bitMask 0 (by decide))
  rw [decodeWord_of_syndrome_eq_zero hsyn, overall_codeword_xor hv, overall_bitMask 0 (by decide)]

/-- R116 (d): two errors leave the overall parity even, and the position is not 0, for no two columns of `H` are
equal (`pcheck_bitMask_inj`); so the flip makes the parity odd. -/
theorem unc_decodeWord_double_error {v : Word} (hv : isCodeword v = true) {i j : Nat} (hi : i < 32) (hj : j < 32)
    (hij : i ≠ j) : (decodeWord (v ^^^ bitMask i ^^^ bitMask j)).unc = true := by
  rw [BitVec.xor_assoc]
  have hq : overall (bitMask i ^^^ bitMask j) = false := by
    rw [overall_xor, overall_bitMask i hi, overall_bitMask j hj, Bool.xor_self]
  have hsyn : syndrome (bitMask i ^^^ bitMask j) ≠ 0#5 := fun h0 => by
    have hzero := (isCodeword_iff _).mpr ⟨h0, hq⟩
    rw [isCodeword_iff_pcheck, pcheck_xor, BitVec.xor_eq_zero_iff] at hzero
    exact hij (pcheck_bitMask_inj hi hj hzero)
  rw [unc_decodeWord, overall_codeword_xor hv, syndrome_codeword_xor hv, hq, decide_eq_true hsyn, Bool.false_xor]

/-- Settles O35: clauses (a) to (d) of R116 in turn. -/
theorem singleErrorsCorrectedDoubleErrorsDetected : Obligations.SingleErrorsCorrectedDoubleErrorsDetected :=
  fun _ hv => ⟨decodeWord_codeword hv, fun _ h1 hi => decodeWord_single_error hv h1 hi,
    decodeWord_index_zero_error hv,
    fun _ _ hij hj => unc_decodeWord_double_error hv (hij.trans hj) hj (Nat.ne_of_lt hij)⟩

/-! ### The command `DECW` (R117) -/

theorem decodedData_of_unc {d : Decoded} (h : d.unc = true) : decodedData d = 0#26 := if_pos h

theorem decodedData_of_accepted {d : Decoded} (h : d.unc = false) : decodedData d = extract26 d.word :=
  if_neg (Bool.eq_false_iff.mp h)

/-- The three fields of the response. -/
theorem decodedResponse_fields (d : Decoded) :
    (decodedResponse d).getLsbD 31 = d.unc ∧ (decodedResponse d).extractLsb' 26 5 = d.pos ∧
      (decodedResponse d).extractLsb' 0 26 = decodedData d := by
  refine ⟨?_, ?_, BitVec.extractLsb'_append_eq_right⟩
  · calc (decodedResponse d).getLsbD 31 = (flagBit d.unc ++ d.pos).getLsbD 5 := BitVec.getLsbD_append
      _ = (flagBit d.unc).getLsbD 0 := BitVec.getLsbD_append
      _ = d.unc := by rw [flagBit, BitVec.getLsbD_ofBool, decide_eq_true rfl, Bool.true_and]
  · calc (decodedResponse d).extractLsb' 26 5 = (flagBit d.unc ++ d.pos).extractLsb' 0 5 :=
        BitVec.extractLsb'_append_eq_of_le (Nat.le_refl 26)
      _ = d.pos := BitVec.extractLsb'_append_eq_right

/-- Settles O36: the command answers `decodedResponse` of the decoded word, whose fields
`decodedResponse_fields` gives. -/
theorem decwWritesTheDecodedWord : Obligations.DecwWritesTheDecodedWord := by
  intro s w hs
  obtain ⟨hunc, hpos, hdata⟩ := decodedResponse_fields (decodeWord w)
  exact ⟨decodedResponse (decodeWord w), gated_of_not_faulted hs _, hunc, hpos,
    fun h => hdata.trans (decodedData_of_accepted h), fun h => hdata.trans (decodedData_of_unc h)⟩

end Sys2Proof.Machine

namespace Sys2Proof.Machine

/-! ### Extraction (R125 to R127) -/

theorem getD_dataIndexes_mem {k : Nat} (hk : k < 26) : dataIndexes.getD k 0 ∈ dataIndexes := by
  rw [List.getD_eq_getElem _ 0 hk]
  exact List.getElem_mem hk

/-- R125: an index of a data bit is below 32 and holds no parity bit. -/
theorem lt_and_notMem_parityIndexes_of_mem_dataIndexes {i : Nat} (hi : i ∈ dataIndexes) :
    i < 32 ∧ i ∉ parityIndexes := by
  obtain ⟨hnodup, hall⟩ := indexes_partition
  exact ⟨(hall i).mpr (List.mem_append_right _ hi), fun hp => List.disjoint_of_nodup_append hnodup hp hi⟩

/-- R126: the data of a word is fixed by its bits at the data indexes. -/
theorem extract26_congr {v w : Word} (h : ∀ i ∈ dataIndexes, bitAt v i = bitAt w i) : extract26 v = extract26 w := by
  refine BitVec.eq_of_getLsbD_eq fun n hn => ?_
  have hk : 25 - n < 26 := by omega
  have hn' : n = 25 - (25 - n) := by omega
  rw [hn', getLsbD_extract26 v _ hk, getLsbD_extract26 w _ hk]
  exact h _ (getD_dataIndexes_mem hk)

/-- Settles O38: the slices are the definition, the bits are `getLsbD_extract26`; words that agree off the parity
indexes agree at every data index, which is all that `extract26` reads (`extract26_congr`). -/
theorem extractionReadsNoParityBit : Obligations.ExtractionReadsNoParityBit := by
  refine ⟨fun w => ⟨rfl, getLsbD_extract26 w⟩, fun v w h => extract26_congr fun i hi => ?_⟩
  obtain ⟨hlt, hparity⟩ := lt_and_notMem_parityIndexes_of_mem_dataIndexes hi
  exact h i hlt hparity

/-- Settles O37: the response is `extract26 w`, zero-extended; its low bits are the data bits
(`getLsbD_extract26`), and above them stand the six zeros of the extension. -/
theorem xtrAnswersTheDataBits : Obligations.XtrAnswersTheDataBits := by
  intro s w hs
  refine ⟨(extract26 w).setWidth 32, answer_of_not_faulted hs _, fun k hk => ?_, ?_⟩
  · rw [BitVec.getLsbD_setWidth, decide_eq_true (show 25 - k < 32 by omega), Bool.true_and, getLsbD_extract26 w k hk]
  · rw [BitVec.setWidth_eq_append (by decide)]
    exact BitVec.extractLsb'_append_eq_left

end Sys2Proof.Machine

namespace Sys2Proof.Machine

/-! ### The packet commands where their checks pass (R141 to R149) -/

/-- With no fault standing, a command whose check passes executes (R81). -/
theorem gated_check_of_passes {s : State} (hs : s.block.faulted = false) {check : Bool} (h : check = false) (k : Cause)
    (r : Result) : gated s (if check then .next (raiseFault k s) else r) = r := by
  rw [gated_of_not_faulted hs, if_neg (by simp [h])]

/-- R141: `BEGIN` with a legal size. -/
theorem exec_beginPacket_of_legal {s : State} (hs : s.block.faulted = false) {size : BitVec 10}
    (h : size.toNat ≤ 512 ∧ size.toNat % 4 = 0) :
    exec (.beginPacket size) s = .next (respondStatus (openPacket size s.block) s) := by
  have hsize : sizeMalformed size = false := (check_false_iff (sizeMalformed_iff size)).mpr (by omega)
  exact gated_check_of_passes hs hsize .malformed _

/-- R143: an open packet with groups left takes a `PUSHW`. -/
theorem pushOutOfSequence_of_open {b : Block} (hactive : b.active = true) (hleft : b.wcnt.toNat ≠ b.size.toNat / 4) :
    pushOutOfSequence b = false :=
  (check_false_iff (pushOutOfSequence_iff b)).mpr (by simp [hactive, hleft])

theorem exec_pushw_of_pushGroup {s : State} (hs : s.block.faulted = false) (hseq : pushOutOfSequence s.block = false)
    {w : Word} {b : Block} (h : pushGroup w s.block = .ok b) : exec (.pushw w) s = .next (respondStatus b s) :=
  (gated_check_of_passes hs hseq .sequence _).trans (by rw [h]; rfl)

/-- R174: with no packet open, or all of its groups pushed, a `PUSHW` is out of sequence. -/
theorem execPushw_outOfSequence {s : State} (hs : s.block.faulted = false)
    (h : s.block.active = false ∨ s.block.wcnt.toNat = s.block.size.toNat / 4) (w : Word) :
    execPushw w s = .next (faultEntry .sequence s) :=
  gated_check_of_fails hs ((pushOutOfSequence_iff s.block).mpr h) .sequence _

/-- R144: once the packet is invalid, a group is counted and no more. -/
theorem pushGroup_of_invalid {b : Block} (hinvalid : b.invalid = true) (w : Word) :
    pushGroup w b = .ok (countGroup b) := if_pos hinvalid

/-- R143: an uncorrectable group is counted and recorded, and makes the packet invalid. -/
theorem pushGroup_of_unc {b : Block} {w : Word} (hvalid : b.invalid = false)
    (hunc : (decodeWord (reorder w)).unc = true) :
    pushGroup w b = .ok { b with
      cw := (decodeWord (reorder w)).word, syn := (decodeWord (reorder w)).pos, unc := true, invalid := true
      wcnt := b.wcnt + 1 } := by
  rw [pushGroup, if_neg (by simp [hvalid]), takeDecoded, if_pos hunc, Block.withDecoded, hunc]
  rfl

/-- The block once an accepted group has been pushed: counted, recorded and packed (R143). -/
def Block.accepted (b : Block) (d : Decoded) : Block := ((countGroup b).withDecoded d).appended (extract26 d.word)

theorem pushGroup_of_accepted {b : Block} {w : Word} (hvalid : b.invalid = false)
    (hunc : (decodeWord (reorder w)).unc = false) (hle : packAddress b + packCount b ≤ Config.maxOut) :
    pushGroup w b = .ok (b.accepted (decodeWord (reorder w))) := by
  rw [pushGroup, if_neg (by simp [hvalid]), takeDecoded, if_neg (by simp [hunc])]
  exact append_of_le hle

theorem exec_endPacket_of_closedLength {s : State} (hs : s.block.faulted = false)
    (hseq : endOutOfSequence s.block = false) {n : Nat} (h : closedLength s.block = .ok n) :
    exec .endPacket s =
      .next (respondStatus { s.block with active := false, done := true, olen := BitVec.ofNat 9 n } s) :=
  (gated_check_of_passes hs hseq .sequence _).trans (by rw [closePacket, h]; rfl)

/-- R149: an open invalid packet may be closed whatever `WCNT` is. -/
theorem endOutOfSequence_of_invalid {b : Block} (hactive : b.active = true) (hinvalid : b.invalid = true) :
    endOutOfSequence b = false :=
  (check_false_iff (endOutOfSequence_iff b)).mpr (by simp [hactive, hinvalid])

/-- R145: an open packet with all of its groups pushed may be closed. -/
theorem endOutOfSequence_of_complete {b : Block} (hactive : b.active = true)
    (hall : b.wcnt.toNat = b.size.toNat / 4) : endOutOfSequence b = false :=
  (check_false_iff (endOutOfSequence_iff b)).mpr (by simp [hactive, hall])

/-- R145: nothing of an invalid packet is readable. -/
theorem closedLength_of_invalid {b : Block} (hinvalid : b.invalid = true) : closedLength b = .ok 0 := if_pos hinvalid

/-- R145, R133: the readable length of a valid packet. -/
theorem closedLength_of_valid {b : Block} (hvalid : b.invalid = false) (hle : b.ocnt.toNat ≤ Config.maxOut) :
    closedLength b = .ok (trimmedLength b.size.toNat (Memory.read b.obuf) b.ocnt.toNat) := by
  rw [closedLength, if_neg (by simp [hvalid]), if_pos hle, trimmedLength]
  split <;> rfl

/-- Settles O39: the size passes the check, and the block is `openPacket`'s; `STATUS` by its formula (R34). -/
theorem beginOpensAFreshPacket : Obligations.BeginOpensAFreshPacket := by
  intro s size hs hle haligned
  refine ⟨_, exec_beginPacket_of_legal hs ⟨hle, haligned⟩, rfl, fun herr => ?_⟩
  apply BitVec.eq_of_toNat_eq
  simp [statusWord_toNat, hs, herr]

/-- Settles O42: the block is the one `pushGroup_of_unc` gives. -/
theorem pushwRecordsAnUncorrectableCodeword : Obligations.PushwRecordsAnUncorrectableCodeword :=
  fun _ _ hs hactive hvalid hleft hunc =>
    ⟨_, exec_pushw_of_pushGroup hs (pushOutOfSequence_of_open hactive hleft) (pushGroup_of_unc hvalid hunc), rfl⟩

/-- Settles O43: the block is `countGroup`'s (`pushGroup_of_invalid`). -/
theorem pushwOfAnInvalidPacketOnlyCounts : Obligations.PushwOfAnInvalidPacketOnlyCounts :=
  fun _ w hs hactive hinvalid hleft =>
    ⟨_, exec_pushw_of_pushGroup hs (pushOutOfSequence_of_open hactive hleft) (pushGroup_of_invalid hinvalid w), rfl⟩

/-- Settles O46: `INVALID` alone puts `END` in sequence, and the length is 0. -/
theorem endClosesAnInvalidPacketEarly : Obligations.EndClosesAnInvalidPacketEarly :=
  fun _ hs hactive hinvalid =>
    ⟨_, exec_endPacket_of_closedLength hs (endOutOfSequence_of_invalid hactive hinvalid)
      (closedLength_of_invalid hinvalid), rfl⟩

/-- Settles O47: the empty packet is complete at once, so `PUSHW` is out of sequence in it; its length is 0, so no
index is below it. -/
theorem theEmptyPacketIsValid : Obligations.TheEmptyPacketIsValid := by
  intro s hs
  have hlegal : (0#10).toNat ≤ 512 ∧ (0#10).toNat % 4 = 0 := by decide
  have hcomplete : (openPacket 0#10 s.block).wcnt.toNat = (openPacket 0#10 s.block).size.toNat / 4 := by simp
  have hlength : closedLength (openPacket 0#10 s.block) = .ok 0 := closedLength_of_valid rfl (Nat.zero_le _)
  refine ⟨_, _, exec_beginPacket_of_legal hs hlegal,
    exec_endPacket_of_closedLength (s := respondStatus (openPacket 0#10 s.block) s) hs
      (endOutOfSequence_of_complete rfl hcomplete) hlength, rfl, rfl, rfl, fun w => ?_, fun index => ?_⟩
  · exact execPushw_outOfSequence (s := respondStatus (openPacket 0#10 s.block) s) hs (.inr hcomplete) w
  · refine execRdb_notAvail ?_ (.inr (.inr (Nat.zero_le _)))
    exact hs

/-- Settles O48: the check passes and the byte exists (`Block.Consistent.loadByte_answers`); above its eight bits
stand the zeros of the extension. -/
theorem rdbAnswersAReadableByte : Obligations.RdbAnswersAReadableByte := by
  intro s index hs hfault hdone hvalid hlt
  have hpass : byteNotAvailable index s.block = false :=
    (check_false_iff (byteNotAvailable_iff index s.block)).mpr (by simp [hdone, hvalid, hlt])
  refine ⟨(Memory.read s.block.obuf index.toNat).setWidth 32, ?_, ?_, ?_⟩
  · refine (gated_check_of_passes hfault hpass .notAvail _).trans ?_
    rw [Block.Consistent.loadByte_answers hs hpass]
    rfl
  · rw [BitVec.setWidth_eq_append (by decide)]
    exact BitVec.extractLsb'_append_eq_right
  · rw [BitVec.setWidth_eq_append (by decide)]
    exact BitVec.extractLsb'_append_eq_left

end Sys2Proof.Machine

namespace Sys2Proof.Machine

/-! ### An accepted group (R143, R131) -/

section Accepted
variable {b : Block} (hb : b.Consistent) (hseq : pushOutOfSequence b = false) (hvalid : b.invalid = false) (d : Decoded)

theorem accepted_rcnt_toNat : (b.accepted d).rcnt.toNat = packRest b := by
  change (BitVec.ofNat 3 (packRest b)).toNat = packRest b
  have hlt : packRest b < 2 ^ 3 := Nat.mod_lt _ (by decide)
  rw [BitVec.toNat_ofNat, Nat.mod_eq_of_lt hlt]

include hb

/-- R52, R131: the bytes written and the residue kept are the old residue followed by the data. -/
theorem Block.Consistent.accepted_value :
    bytesValue (bytesFrom (b.accepted d).obuf (packAddress b) (packCount b)) * 2 ^ (b.accepted d).rcnt.toNat +
      (b.accepted d).res.toNat = b.res.toNat * 2 ^ 26 + (extract26 d.word).toNat := by
  have hwritten : bytesFrom (b.accepted d).obuf (packAddress b) (packCount b) = packBytes b (extract26 d.word) := by
    rw [← packBytes_length b (extract26 d.word)]
    exact bytesFrom_written hb.bufferCanonical _ _
  rw [hwritten, accepted_rcnt_toNat]
  exact append_value _ hb.residueBound hb.restEven

/-- R131: no byte outside those written changes. -/
theorem Block.Consistent.read_accepted_outside {a : Nat} (ha : a < packAddress b ∨ packAddress b + packCount b ≤ a) :
    Memory.read (b.accepted d).obuf a = Memory.read b.obuf a :=
  Memory.read_writeBytes_outside hb.bufferCanonical (by rwa [packBytes_length])

include hseq

/-- R25: the group is counted, and `WCNT` does not wrap. -/
theorem Block.Consistent.accepted_wcnt_toNat : (b.accepted d).wcnt.toNat = b.wcnt.toNat + 1 := by
  obtain ⟨_, hlt⟩ := hb.wcnt_lt_of_push hseq
  exact countGroup_wcnt_toNat (by omega)

include hvalid

/-- R38 (f), R50: all of the bytes that an accepted group completes exist. -/
theorem Block.Consistent.pack_le : packAddress b + packCount b ≤ 416 := by
  obtain ⟨hactive, hlt⟩ := hb.wcnt_lt_of_push hseq
  obtain ⟨hocnt, hrcnt⟩ := hb.packerInStep hactive hvalid
  have hsize := hb.sizeBound
  exact (packer_in_step hocnt hrcnt (by omega)).2.2

/-- R131: `OCNT` counts the bytes written and does not wrap. -/
theorem Block.Consistent.accepted_ocnt_toNat : (b.accepted d).ocnt.toNat = b.ocnt.toNat + packCount b := by
  have hle : b.ocnt.toNat + packCount b ≤ 416 := hb.pack_le hseq hvalid
  change (BitVec.ofNat 9 (b.ocnt.toNat + packCount b)).toNat = _
  rw [BitVec.toNat_ofNat, Nat.mod_eq_of_lt (by omega)]

/-- R38 is kept. -/
theorem Block.Consistent.accepted : (b.accepted d).Consistent :=
  (hb.packed hseq hvalid (extract26 d.word) (hb.pack_le hseq hvalid)).decoded d

end Accepted

/-- Settles O41: the block is `Block.accepted`, whose registers and bytes the lemmas above give. -/
theorem pushwPacksAnAcceptedCodeword : Obligations.PushwPacksAnAcceptedCodeword := by
  intro s w hs hfault hactive hvalid hleft hunc
  have hb : s.block.Consistent := hs
  have hseq := pushOutOfSequence_of_open hactive hleft
  have hpush := pushGroup_of_accepted hvalid hunc (hb.pack_le hseq hvalid)
  generalize decodeWord (reorder w) = d at hunc hpush ⊢
  have hframe : s.block.accepted d = { s.block with
      cw := d.word, syn := d.pos, unc := false
      wcnt := (s.block.accepted d).wcnt, ocnt := (s.block.accepted d).ocnt, rcnt := (s.block.accepted d).rcnt
      res := (s.block.accepted d).res, obuf := (s.block.accepted d).obuf } := by
    rw [← hunc]
    rfl
  refine ⟨respondStatus (s.block.accepted d) s, packCount s.block, exec_pushw_of_pushGroup hfault hseq hpush, rfl,
    ?_, hb.accepted_wcnt_toNat hseq d, hb.accepted_ocnt_toNat hseq hvalid d, accepted_rcnt_toNat d,
    hb.accepted_value d, fun a ha => hb.read_accepted_outside d ha⟩
  exact congrArg
    (fun c => { s with block := c, response := some { rsp := statusWord (s.block.accepted d), err := false } }) hframe

/-! ### `END` of a complete packet (R145, R132, R133) -/

theorem trimmedLength_le (size : Nat) (f : Nat → Byte) (n : Nat) : trimmedLength size f n ≤ n := by
  unfold trimmedLength
  split
  · exact Nat.sub_le _ _
  · exact le_rfl

theorem trimmedLength_of_short {size : Nat} (h : 0 < size ∧ size < 512) (f : Nat → Byte) (n : Nat) :
    trimmedLength size f n = n - trimCount f n := if_pos ((trimApplies_iff size).mpr h)

theorem trimmedLength_of_not_short {size : Nat} (h : ¬(0 < size ∧ size < 512)) (f : Nat → Byte) (n : Nat) :
    trimmedLength size f n = n := if_neg fun ht => h ((trimApplies_iff size).mp ht)

/-- The trim reads nothing but the bytes below `n` (R132). -/
theorem trimmedLength_congr {f g : Nat → Byte} (size : Nat) {n : Nat} (h : ∀ a < n, f a = g a) :
    trimmedLength size f n = trimmedLength size g n := by
  rw [trimmedLength, trimmedLength, trimCount, trimCount, trailingZeros_congr _ h]

/-- R38 (f), R129: a complete packet has `outlen(SIZE)` bytes. -/
theorem Block.Consistent.ocnt_of_complete {b : Block} (hb : b.Consistent) (hactive : b.active = true)
    (hvalid : b.invalid = false) (hall : b.wcnt.toNat = b.size.toNat / 4) :
    b.ocnt.toNat = outLen b.size.toNat := by
  obtain ⟨hocnt, _⟩ := hb.packerInStep hactive hvalid
  have haligned := hb.sizeAligned
  rw [outLen]
  omega

/-- R145: what `END` answers for a complete valid packet; the readable length fits `OLEN`. -/
theorem exec_endPacket_of_complete {s : State} (hs : s.Consistent) (hfault : s.block.faulted = false)
    (hactive : s.block.active = true) (hvalid : s.block.invalid = false)
    (hall : s.block.wcnt.toNat = s.block.size.toNat / 4) :
    ∃ olen : BitVec 9, olen.toNat = trimmedLength s.block.size.toNat (Memory.read s.block.obuf) s.block.ocnt.toNat ∧
      exec .endPacket s = .next (respondStatus { s.block with active := false, done := true, olen := olen } s) := by
  have hwritten := Block.Consistent.writtenBound hs
  have hle := trimmedLength_le s.block.size.toNat (Memory.read s.block.obuf) s.block.ocnt.toNat
  refine ⟨_, ?_, exec_endPacket_of_closedLength hfault (endOutOfSequence_of_complete hactive hall)
    (closedLength_of_valid hvalid hwritten)⟩
  rw [BitVec.toNat_ofNat, Nat.mod_eq_of_lt (by omega)]

/-- Settles O45: `OLEN` is the trimmed length (`exec_endPacket_of_complete`), and `trailingZeros_spec` says what the
trim removes from a short packet. -/
theorem endClosesACompletePacket : Obligations.EndClosesACompletePacket := by
  intro s hs hfault hactive hvalid hall
  obtain ⟨olen, holen, hexec⟩ := exec_endPacket_of_complete hs hfault hactive hvalid hall
  refine ⟨_, hexec, rfl, Block.Consistent.ocnt_of_complete hs hactive hvalid hall, fun hshort => ?_, fun hlong => ?_⟩
  · rw [trimmedLength_of_short hshort] at holen
    obtain ⟨hmax, hle, hzero, hstop⟩ := trailingZeros_spec (Memory.read s.block.obuf) 4 s.block.ocnt.toNat
    change olen.toNat = _ - trailingZeros _ 4 _ at holen
    refine ⟨_, hmax, ?_, fun a ha => hzero a (holen ▸ ha), ?_⟩
    · change olen.toNat + _ = _
      omega
    · change _ ∨ olen.toNat = 0 ∨ Memory.read s.block.obuf (olen.toNat - 1) ≠ 0#8
      rw [holen]
      exact hstop.imp_right (Or.imp_left (by omega))
  · rw [trimmedLength_of_not_short hlong] at holen
    exact BitVec.eq_of_toNat_eq holen

end Sys2Proof.Machine

namespace Sys2Proof.Machine

/-! ### The packet and `CW`, `SYN`, `UNC` (R150) -/

/-- The packet part of a block and its fault record: all but `CW`, `SYN`, `UNC`. -/
def Block.undecoded (b : Block) : Block := b.withDecoded { pos := 0, word := 0, unc := false }

/-- Two answers that differ in `CW`, `SYN`, `UNC` at most, when the first is a next state. -/
def AnswersSamePacket (r q : Result) : Prop :=
  ∀ t, r = .next t → ∃ u, q = .next u ∧ u.block.undecoded = t.block.undecoded

theorem AnswersSamePacket.of_next {t u : State} (h : u.block.undecoded = t.block.undecoded) :
    AnswersSamePacket (.next t) (.next u) := by
  rintro _ ⟨⟩
  exact ⟨u, rfl, h⟩

section OtherDecoded
variable (s : State) (d : Decoded)

theorem raiseFault_samePacket (k : Cause) :
    AnswersSamePacket (.next (raiseFault k s))
      (.next (raiseFault k { s with block := s.block.withDecoded d })) := by
  refine .of_next ?_
  cases hf : s.block.faulted with
  | true => rw [raiseFault_of_faulted hf, raiseFault_of_faulted (by exact hf)]; rfl
  | false => rw [raiseFault_of_not_faulted hf, raiseFault_of_not_faulted (by exact hf)]; rfl

/-- A check that reads no decoded register, and what the command does where it passes. -/
theorem gated_check_samePacket (check : Bool) (k : Cause) {r q : Result} (h : AnswersSamePacket r q) :
    AnswersSamePacket (gated s (if check then .next (raiseFault k s) else r))
      (gated { s with block := s.block.withDecoded d }
        (if check then .next (raiseFault k { s with block := s.block.withDecoded d }) else q)) := by
  unfold gated
  rw [withDecoded_faulted]
  split
  · exact .of_next rfl
  · cases check with
    | true => exact raiseFault_samePacket s d k
    | false => exact h

/-- `PUSHW` writes `CW`, `SYN`, `UNC` anew or, in an invalid packet, leaves them (R143, R144). -/
theorem pushGroup_withDecoded (w : Word) (b : Block) :
    pushGroup w (b.withDecoded d) = pushGroup w b ∨
    pushGroup w (b.withDecoded d) = (pushGroup w b).map (·.withDecoded d) := by
  rw [pushGroup, pushGroup, withDecoded_invalid]
  split
  · exact .inr rfl
  · exact .inl rfl

/-- `END` leaves `CW`, `SYN`, `UNC` (R145). -/
theorem closePacket_withDecoded (b : Block) :
    closePacket (b.withDecoded d) = (closePacket b).map (·.withDecoded d) := by
  have hlength : closedLength (b.withDecoded d) = closedLength b := rfl
  rw [closePacket, closePacket, hlength]
  cases closedLength b <;> rfl

theorem finish_samePacket {r q : Except Fault Block} (h : q = r ∨ q = r.map (·.withDecoded d)) :
    AnswersSamePacket (finish r s) (finish q { s with block := s.block.withDecoded d }) := by
  intro t ht
  obtain ⟨b, rfl, rfl⟩ := finish_eq_next ht
  rcases h with rfl | rfl <;> exact ⟨_, rfl, rfl⟩

/-- R150: no packet command reads `CW`, `SYN`, `UNC`. -/
theorem exec_samePacket {i : Instr} (h : isPacketCommand i = true) :
    AnswersSamePacket (exec i s) (exec i { s with block := s.block.withDecoded d }) := by
  cases i with
  | beginPacket size => exact gated_check_samePacket s d _ .malformed (.of_next rfl)
  | pushw w =>
    exact gated_check_samePacket s d _ .sequence (finish_samePacket s d (pushGroup_withDecoded d w s.block))
  | endPacket =>
    exact gated_check_samePacket s d _ .sequence (finish_samePacket s d (.inr (closePacket_withDecoded d s.block)))
  | rdb index =>
    have hload : loadByte (s.block.withDecoded d) index.toNat = loadByte s.block index.toNat := rfl
    refine gated_check_samePacket s d _ .notAvail ?_
    rw [hload]
    cases loadByte s.block index.toNat with
    | ok v => exact .of_next rfl
    | error f => exact nofun
  | nop | clr | rdr _ | bswap _ | brev8 _ | reord _ | pchk _ | decw _ | xtr _ => cases h
  | reserved7 _ | reservedE _ | reservedF _ => cases h

end OtherDecoded

/-- R150: what a bystander does to the block where it executes. -/
theorem blockEffect_of_isBystander {i : Instr} {b b' : Block} (hi : isBystander i = true) (h : blockEffect i b b') :
    (∃ w, i = .decw w ∧ b' = b.withDecoded (decodeWord w)) ∨ b' = b := by
  rcases blockEffect_cases h with ⟨rfl, _⟩ | ⟨_, rfl, _⟩ | ⟨_, rfl, _⟩ | ⟨rfl, _⟩ | hdecw | hsame
  · cases hi
  · cases hi
  · cases hi
  · cases hi
  · exact .inl hdecw
  · exact .inr hsame

/-- Settles O50: a bystander that executes is `DECW` or writes nothing (`blockEffect_of_isBystander`), and a refusal or
fault entry leaves the packet part; the second half is `exec_samePacket`. -/
theorem bystandersDoNotDisturbThePacket : Obligations.BystandersDoNotDisturbThePacket := by
  refine ⟨fun s t i hi h => ?_, fun s t i cw syn unc hi h => ?_⟩
  · rcases exec_cases h with ⟨_, rfl⟩ | ⟨_, k, rfl⟩ | ⟨_, b, v, rfl, heffect⟩
    · exact ⟨rfl, fun _ _ => rfl⟩
    · exact ⟨rfl, fun _ hok => nomatch hok⟩
    · rcases blockEffect_of_isBystander hi heffect with ⟨w, rfl, rfl⟩ | rfl
      · exact ⟨rfl, fun hne _ => absurd rfl (hne w)⟩
      · exact ⟨rfl, fun _ _ => rfl⟩
  · obtain ⟨u, hu, hsame⟩ := exec_samePacket s { pos := syn, word := cw, unc := unc } hi t h
    exact ⟨u, hu, (congrArg Block.packetPart hsame :), (congrArg Block.faulted hsame :),
      (congrArg Block.err hsame :)⟩

end Sys2Proof.Machine

namespace Sys2Proof.Machine

/-! ### The packet commands compute `decode_payload` (R151, R12)

While a packet is open and valid, the bytes written and the residue spell the bit sequence `S` of the groups pushed so
far (`Block.Spells`); the first uncorrectable group leaves the packet open and invalid (`Block.OpenInvalid`). -/

/-- An open valid packet whose written bytes, followed by the residue, spell the bit sequence `S` (R128, R131). -/
structure Block.Spells (b : Block) (S : List Bool) : Prop where
  consistent : b.Consistent
  unfaulted : b.faulted = false
  active : b.active = true
  valid : b.invalid = false
  length : S.length = 26 * b.wcnt.toNat
  value : bytesValue (bytesFrom b.obuf 0 b.ocnt.toNat) * 2 ^ b.rcnt.toNat + b.res.toNat = bitsValue S

/-- An open packet in which an uncorrectable group was met (R143). -/
structure Block.OpenInvalid (b : Block) : Prop where
  unfaulted : b.faulted = false
  active : b.active = true
  invalid : b.invalid = true

/-- R141: a fresh packet spells nothing. -/
theorem Block.Consistent.openPacket_spells {b : Block} (hb : b.Consistent) (hfault : b.faulted = false)
    {size : BitVec 10} (h : size.toNat ≤ 512 ∧ size.toNat % 4 = 0) : (openPacket size b).Spells [] where
  consistent := hb.opened ((check_false_iff (sizeMalformed_iff size)).mpr (by omega))
  unfaulted := hfault
  active := rfl
  valid := rfl
  length := rfl
  value := rfl

/-- The numbers behind an accepted group: `V` and `res` spell `S`; `n` more bytes of value `W` and the residue `res'`
spell the old residue and the data `d`. -/
theorem spelled_append {V W S r r' n res res' d : Nat} (hold : V * 2 ^ r + res = S)
    (hnew : W * 2 ^ r' + res' = res * 2 ^ 26 + d) (hbits : 8 * n + r' = r + 26) :
    (V * 256 ^ n + W) * 2 ^ r' + res' = S * 2 ^ 26 + d := by
  have hpow : 256 ^ n * 2 ^ r' = 2 ^ r * 2 ^ 26 := by
    rw [← pow_add, ← hbits, pow_add, pow_mul]
    rfl
  calc (V * 256 ^ n + W) * 2 ^ r' + res' = V * (256 ^ n * 2 ^ r') + (W * 2 ^ r' + res') := by ring
    _ = (V * 2 ^ r + res) * 2 ^ 26 + d := by rw [hpow, hnew]; ring
    _ = S * 2 ^ 26 + d := by rw [hold]

/-- R143: an accepted group appends its 26 data bits to what the packet spells. -/
theorem Block.Spells.accepted {b : Block} {S : List Bool} (h : b.Spells S)
    (hleft : b.wcnt.toNat ≠ b.size.toNat / 4) (d : Decoded) :
    (b.accepted d).Spells (S ++ dataBits (extract26 d.word)) := by
  have hb := h.consistent
  have hseq := pushOutOfSequence_of_open h.active hleft
  have hbelow : bytesFrom (b.accepted d).obuf 0 b.ocnt.toNat = bytesFrom b.obuf 0 b.ocnt.toNat :=
    bytesFrom_congr fun k _ hk => hb.read_accepted_outside d (.inl (by rw [packAddress]; omega))
  have hvalue := hb.accepted_value d
  have hbits : 8 * packCount b + (b.accepted d).rcnt.toNat = b.rcnt.toNat + 26 := by
    rw [accepted_rcnt_toNat]
    exact Nat.div_add_mod _ _
  exact {
    consistent := hb.accepted hseq h.valid d
    unfaulted := h.unfaulted
    active := h.active
    valid := h.valid
    length := by
      rw [List.length_append, dataBits_length, h.length, hb.accepted_wcnt_toNat hseq d, Nat.mul_succ]
    value := by
      rw [hb.accepted_ocnt_toNat hseq h.valid d, bytesFrom_add, Nat.zero_add, hbelow, bytesValue_append,
        bytesFrom_length, bitsValue_append, dataBits_length, dataBits_value]
      exact spelled_append h.value hvalue hbits }

/-- R128: each byte written is the byte of the sequence. -/
theorem Block.Spells.read {b : Block} {S : List Bool} (h : b.Spells S) :
    ∀ a < b.ocnt.toNat, Memory.read b.obuf a = sequenceByte S a := by
  obtain ⟨hocnt, hrcnt⟩ := h.consistent.packerInStep h.active h.valid
  have hlength := h.length
  exact read_eq_sequenceByte (by omega) h.consistent.residueBound h.value

/-! ### Runs of commands -/

/-- A command that answers a next state hands it to the commands after it. -/
theorem runCommands_encode_cons {i : Instr} {s t : State} (h : exec i s = .next t) (cs : List CommandWord) :
    runCommands (encode i :: cs) s = runCommands cs t := by
  rw [runCommands, step_issue, runCommand_of_decode_ok (decodeOfEncodeIsTheCommand i), h]

theorem runCommands_append {cs : List CommandWord} {s t : State} (h : runCommands cs s = .next t)
    (ds : List CommandWord) : runCommands (cs ++ ds) s = runCommands ds t := by
  induction cs generalizing s with
  | nil => cases h; rfl
  | cons c cs ih =>
    rw [List.cons_append, runCommands]
    rw [runCommands] at h
    cases hc : step (issue c s) with
    | next s' => rw [hc] at h; exact ih h
    | fault f => rw [hc] at h; cases h
    | refused r => rw [hc] at h; cases h

/-- One `PUSHW` for each group (R80). -/
def pushCommands (ws : List Word) : List CommandWord := ws.map fun w => encode (.pushw w)

theorem decodeCommands_eq (p : List Byte) :
    decodeCommands p = encode (.beginPacket (BitVec.ofNat 10 p.length)) ::
      (pushCommands (wireGroups p) ++ [encode .endPacket]) := rfl

/-- R25: `WCNT` does not wrap while groups are left, for `SIZE div 4` is at most 255. -/
theorem succ_wcnt_toNat {b : Block} (hleft : b.wcnt.toNat < b.size.toNat / 4) :
    (b.wcnt + 1).toNat = b.wcnt.toNat + 1 := by
  have hsize := b.size.isLt
  exact countGroup_wcnt_toNat (by omega)

/-- The next state has counted one group of the same packet. -/
def State.Counted (s t : State) : Prop :=
  t.block.size = s.block.size ∧ t.block.wcnt.toNat = s.block.wcnt.toNat + 1

/-- With one group more counted, one fewer is left. -/
theorem State.Counted.room {s t : State} (h : s.Counted t) {n : Nat}
    (hroom : s.block.wcnt.toNat + (n + 1) = s.block.size.toNat / 4) :
    t.block.wcnt.toNat + n = t.block.size.toNat / 4 := by
  obtain ⟨hsize, hwcnt⟩ := h
  rw [hsize, hwcnt]
  omega

section Push
variable {s : State} (hleft : s.block.wcnt.toNat < s.block.size.toNat / 4) (w : Word)
include hleft

/-- R144: the packet stays invalid. -/
theorem Block.OpenInvalid.pushes (h : s.block.OpenInvalid) :
    ∃ t, exec (.pushw w) s = .next t ∧ s.Counted t ∧ t.block.OpenInvalid :=
  ⟨_, exec_pushw_of_pushGroup h.unfaulted (pushOutOfSequence_of_open h.active hleft.ne)
    (pushGroup_of_invalid h.invalid w), ⟨rfl, succ_wcnt_toNat hleft⟩, ⟨h.unfaulted, h.active, h.invalid⟩⟩

variable {w} {S : List Bool}

/-- R143: an uncorrectable group makes it so. -/
theorem Block.Spells.pushes_unc (h : s.block.Spells S) (hunc : (decodeWord (reorder w)).unc = true) :
    ∃ t, exec (.pushw w) s = .next t ∧ s.Counted t ∧ t.block.OpenInvalid :=
  ⟨_, exec_pushw_of_pushGroup h.unfaulted (pushOutOfSequence_of_open h.active hleft.ne)
    (pushGroup_of_unc h.valid hunc), ⟨rfl, succ_wcnt_toNat hleft⟩, ⟨h.unfaulted, h.active, rfl⟩⟩

/-- R143: an accepted group appends its bits. -/
theorem Block.Spells.pushes_accepted (h : s.block.Spells S) (hunc : (decodeWord (reorder w)).unc = false) :
    ∃ t, exec (.pushw w) s = .next t ∧ s.Counted t ∧
      t.block.Spells (S ++ dataBits (extract26 (decodeWord (reorder w)).word)) :=
  have hseq := pushOutOfSequence_of_open h.active hleft.ne
  ⟨_, exec_pushw_of_pushGroup h.unfaulted hseq
    (pushGroup_of_accepted h.valid hunc (h.consistent.pack_le hseq h.valid)), ⟨rfl, succ_wcnt_toNat hleft⟩,
    h.accepted hleft.ne _⟩

end Push

/-- R144: the groups left are counted and the packet stays invalid. -/
theorem run_pushCommands_of_invalid (ws : List Word) {s : State} (h : s.block.OpenInvalid)
    (hroom : s.block.wcnt.toNat + ws.length = s.block.size.toNat / 4) :
    ∃ t, runCommands (pushCommands ws) s = .next t ∧ t.block.OpenInvalid := by
  induction ws generalizing s with
  | nil => exact ⟨s, rfl, h⟩
  | cons w ws ih =>
    rw [List.length_cons] at hroom
    obtain ⟨t, hexec, hcounted, ht⟩ := h.pushes (by omega) w
    obtain ⟨u, hrun, hu⟩ := ih ht (hcounted.room hroom)
    exact ⟨u, (runCommands_encode_cons hexec _).trans hrun, hu⟩

theorem payloadBits_cons_of_unc {w : Word} (h : (decodeWord (reorder w)).unc = true) (ws : List Word) :
    payloadBits (w :: ws) = none := if_pos h

theorem payloadBits_cons_of_accepted {w : Word} (h : (decodeWord (reorder w)).unc = false) (ws : List Word) :
    payloadBits (w :: ws) = (payloadBits ws).map (dataBits (extract26 (decodeWord (reorder w)).word) ++ ·) := by
  rw [payloadBits, if_neg (by simp [h])]
  cases payloadBits ws <;> rfl

/-- A packet of the given size once all of its groups have been pushed: it spells the bits of the groups when they all
decode, and is invalid otherwise (R128, R151). -/
def Block.Pushed (b : Block) (size : BitVec 10) : Option (List Bool) → Prop
  | some S => b.Spells S ∧ b.size = size ∧ b.wcnt.toNat = size.toNat / 4
  | none => b.OpenInvalid

/-- R143, R151: from a packet that spells `S`, pushing the groups left appends their bits to `S`, or meets one that is
uncorrectable. -/
theorem run_pushCommands (ws : List Word) {s : State} {S : List Bool} (h : s.block.Spells S)
    (hroom : s.block.wcnt.toNat + ws.length = s.block.size.toNat / 4) :
    ∃ t, runCommands (pushCommands ws) s = .next t ∧
      t.block.Pushed s.block.size ((payloadBits ws).map (S ++ ·)) := by
  induction ws generalizing s S with
  | nil =>
    have hbits : (payloadBits []).map (S ++ ·) = some S := congrArg some (List.append_nil S)
    rw [hbits]
    exact ⟨s, rfl, h, rfl, hroom⟩
  | cons w ws ih =>
    rw [List.length_cons] at hroom
    have hleft : s.block.wcnt.toNat < s.block.size.toNat / 4 := by omega
    cases hunc : (decodeWord (reorder w)).unc with
    | true =>
      obtain ⟨t, hexec, hcounted, ht⟩ := h.pushes_unc hleft hunc
      obtain ⟨u, hrun, hu⟩ := run_pushCommands_of_invalid ws ht (hcounted.room hroom)
      rw [payloadBits_cons_of_unc hunc]
      exact ⟨u, (runCommands_encode_cons hexec _).trans hrun, hu⟩
    | false =>
      obtain ⟨t, hexec, hcounted, ht⟩ := h.pushes_accepted hleft hunc
      obtain ⟨u, hrun, hu⟩ := ih ht (hcounted.room hroom)
      refine ⟨u, (runCommands_encode_cons hexec _).trans hrun, ?_⟩
      rw [payloadBits_cons_of_accepted hunc, Option.map_map, ← hcounted.1]
      simpa only [Function.comp_def, List.append_assoc] using hu

/-! ### `END` of the packet, and the whole sequence -/

/-- R151 (b): an invalid packet closes as invalid. -/
theorem Block.OpenInvalid.closes {s : State} (h : s.block.OpenInvalid) :
    ∃ t, exec .endPacket s = .next t ∧ t.block.faulted = false ∧ t.block.done = true ∧ t.block.invalid = true :=
  ⟨_, exec_endPacket_of_closedLength h.unfaulted (endOutOfSequence_of_invalid h.active h.invalid)
    (closedLength_of_invalid h.invalid), h.unfaulted, rfl, h.invalid⟩

theorem sequenceBytes_length (S : List Bool) (n : Nat) : (sequenceBytes S n).length = n := by simp [sequenceBytes]

/-- R151 (c): a complete valid packet closes with the trimmed bytes of the sequence it spells. -/
theorem Block.Spells.closes {s : State} {S : List Bool} (h : s.block.Spells S)
    (hall : s.block.wcnt.toNat = s.block.size.toNat / 4) {bytes : List Byte}
    (hbytes : bytes = sequenceBytes S
      (trimmedLength s.block.size.toNat (sequenceByte S) (outLen s.block.size.toNat))) :
    ∃ t, exec .endPacket s = .next t ∧ t.block.faulted = false ∧ t.block.done = true ∧ t.block.invalid = false ∧
      t.block.olen.toNat = bytes.length ∧ bytesFrom t.block.obuf 0 bytes.length = bytes := by
  obtain ⟨olen, holen, hexec⟩ := exec_endPacket_of_complete h.consistent h.unfaulted h.active h.valid hall
  have hle : olen.toNat ≤ s.block.ocnt.toNat := holen ▸ trimmedLength_le _ _ _
  rw [trimmedLength_congr _ h.read, h.consistent.ocnt_of_complete h.active h.valid hall] at holen
  rw [← holen] at hbytes
  have hlength : bytes.length = olen.toNat := by rw [hbytes, sequenceBytes_length]
  refine ⟨_, hexec, h.unfaulted, rfl, h.valid, hlength.symm, ?_⟩
  rw [hlength, hbytes]
  refine List.map_congr_left fun k hk => ?_
  rw [Nat.zero_add]
  exact h.read k (lt_of_lt_of_le (List.mem_range.mp hk) hle)

/-- The three classifications of R151 (a) to (c). -/
theorem decodePayload_cases (p : List Byte) :
    ((512 < p.length ∨ p.length % 4 ≠ 0) ∧ decodePayload p = .malformed) ∨
    (p.length ≤ 512 ∧ p.length % 4 = 0) ∧
      ((payloadBits (wireGroups p) = none ∧ decodePayload p = .invalid) ∨
      ∃ S, payloadBits (wireGroups p) = some S ∧ decodePayload p =
        .valid (sequenceBytes S (trimmedLength p.length (sequenceByte S) (outLen p.length)))) := by
  unfold decodePayload
  split
  · rename_i hmalformed
    exact .inl ⟨hmalformed.symm, rfl⟩
  · rename_i hlegal
    rw [not_or, not_not, not_lt] at hlegal
    refine .inr ⟨hlegal.symm, ?_⟩
    cases payloadBits (wireGroups p) with
    | none => exact .inl ⟨rfl, rfl⟩
    | some S => exact .inr ⟨S, rfl, rfl⟩

/-- R151: `BEGIN` with a legal size and the `PUSHW`s: the packet is open, and what is left is `END`. -/
theorem run_to_end {p : List Byte} {s : State} (hs : s.Consistent) (hfault : s.block.faulted = false)
    (hlegal : p.length ≤ 512 ∧ p.length % 4 = 0) :
    ∃ t, t.block.Pushed (BitVec.ofNat 10 p.length) (payloadBits (wireGroups p)) ∧
      ∀ u, exec .endPacket t = .next u → runCommands (decodeCommands p) s = .next u := by
  have hsize : (BitVec.ofNat 10 p.length).toNat = p.length := by rw [BitVec.toNat_ofNat]; omega
  have hlegal' : (BitVec.ofNat 10 p.length).toNat ≤ 512 ∧ (BitVec.ofNat 10 p.length).toNat % 4 = 0 := by
    rwa [hsize]
  obtain ⟨t, hrun, ht⟩ := run_pushCommands (wireGroups p)
    (s := respondStatus (openPacket (BitVec.ofNat 10 p.length) s.block) s)
    (Block.Consistent.openPacket_spells hs hfault hlegal') (by
      rw [wireGroups_length]
      simp [hsize])
  refine ⟨t, by simpa using ht, fun u hu => ?_⟩
  rw [decodeCommands_eq, runCommands_encode_cons (exec_beginPacket_of_legal hfault hlegal'), runCommands_append hrun,
    runCommands_encode_cons hu, runCommands]

/-- Settles O60: a malformed size is refused at `BEGIN`; otherwise the run comes to `END` with an invalid packet
(`Block.OpenInvalid.closes`) or with one that spells the bit sequence of the payload (`Block.Spells.closes`). -/
theorem packetCommandsComputeDecodePayload : Obligations.PacketCommandsComputeDecodePayload := by
  intro p s hs hfault hlt
  have hsize : (BitVec.ofNat 10 p.length).toNat = p.length := by rw [BitVec.toNat_ofNat, Nat.mod_eq_of_lt hlt]
  rcases decodePayload_cases p with ⟨hmalformed, hp⟩ | ⟨hlegal, ⟨hbits, hp⟩ | ⟨S, hbits, hp⟩⟩
  · rw [hp]
    refine ⟨fun _ => ?_, nofun, nofun⟩
    rw [step_issue, beginCommand, runCommand_of_decode_ok (decodeOfEncodeIsTheCommand _)]
    exact execBegin_malformed hfault (by rwa [hsize])
  · rw [hp]
    refine ⟨nofun, fun _ => ?_, nofun⟩
    obtain ⟨t, ht, hend⟩ := run_to_end hs hfault hlegal
    rw [hbits] at ht
    obtain ⟨u, hu, hclosed⟩ := Block.OpenInvalid.closes ht
    exact ⟨u, hend u hu, hclosed⟩
  · rw [hp]
    refine ⟨nofun, nofun, ?_⟩
    rintro bytes ⟨⟩
    obtain ⟨t, ht, hend⟩ := run_to_end hs hfault hlegal
    rw [hbits] at ht
    obtain ⟨hspells, htsize, hall⟩ := ht
    obtain ⟨u, hu, hclosed⟩ := hspells.closes (htsize ▸ hall) (by rw [htsize, hsize])
    exact ⟨u, hend u hu, hclosed⟩

end Sys2Proof.Machine

namespace Sys2Proof.Machine

/-! ### `NOP` and `CLR` (R160, R161) -/

/-- R34, R161: every term of the formula of `STATUS` is 0 once the registers and flags are. -/
theorem statusWord_clearBlock (b : Block) : statusWord (clearBlock b) = 0x00000000#32 := by
  apply BitVec.eq_of_toNat_eq
  rw [statusWord_toNat]
  simp

/-- Settles O11: `CLR` has no fault gate and leaves `clearBlock`, whose `STATUS` is 0 (`statusWord_clearBlock`). -/
theorem clrZeroesAllButTheBuffer : Obligations.ClrZeroesAllButTheBuffer := by
  intro s
  have hexec : exec .clr s = .next (respond (clearBlock s.block) (statusWord (clearBlock s.block)) s) := rfl
  rw [hexec, statusWord_clearBlock]
  rfl

/-- Settles O17: with no fault standing the gate lets `NOP` through (`gated_of_not_faulted`), and it writes back the
block it found. -/
theorem nopAnswersStatus : Obligations.NopAnswersStatus :=
  fun s hs => gated_of_not_faulted hs (.next (respondStatus s.block s))

end Sys2Proof.Machine

namespace Sys2Proof.Machine

/-! ### What a fault entry writes (R171, R176) -/

/-- R171, R176: the block after a raised fault. -/
theorem raiseFault_block_of_not_faulted {s : State} (hs : s.block.faulted = false) (k : Cause) :
    (raiseFault k s).block = { s.block with faulted := true, err := k.code } := by
  rw [raiseFault_of_not_faulted hs, faultEntry_block]

/-- Settles O19: the codes are `Cause.code`'s. -/
theorem raisedFaultsRecordTheirCode : Obligations.RaisedFaultsRecordTheirCode := fun _ hs =>
  ⟨raiseFault_block_of_not_faulted hs .malformed, raiseFault_block_of_not_faulted hs .illegal,
    raiseFault_block_of_not_faulted hs .sequence, raiseFault_block_of_not_faulted hs .notAvail⟩

/-- Settles O18: of what a command can answer (`exec_cases`), the refusal needs a standing fault and the command's own
effect responds with no error, so the answer is a fault entry. -/
theorem faultEntryWritesOnlyTheFaultRecord : Obligations.FaultEntryWritesOnlyTheFaultRecord := by
  intro s t i v hs hexec hresponse
  rcases exec_cases hexec with ⟨hfault, _⟩ | ⟨_, k, rfl⟩ | ⟨_, b, w, rfl, _⟩
  · exact absurd hfault (by simp [hs])
  · exact ⟨k.code, k.code_range.1, k.code_range.2, rfl⟩
  · exact absurd hresponse (by simp)

/-! ### The causes of MALFORMED, SEQUENCE and NOTAVAIL (R172, R174, R175) -/

/-- Settles O40: `execBegin_malformed`, with the fault entry written out. -/
theorem beginRefusesAMalformedSize : Obligations.BeginRefusesAMalformedSize :=
  fun _ _ hs hsize => execBegin_malformed hs hsize

/-- R174: with no packet open, or a valid packet short of groups, an `END` is out of sequence. -/
theorem execEnd_outOfSequence {s : State} (hs : s.block.faulted = false)
    (h : s.block.active = false ∨ (s.block.invalid = false ∧ s.block.wcnt.toNat < s.block.size.toNat / 4)) :
    execEnd s = .next (faultEntry .sequence s) :=
  gated_check_of_fails hs ((endOutOfSequence_iff s.block).mpr h) .sequence _

/-- Settles O44: the two commands' checks fail. -/
theorem sequenceFaultsOfPushwAndEnd : Obligations.SequenceFaultsOfPushwAndEnd :=
  fun _ hs => ⟨fun w h => execPushw_outOfSequence hs h w, execEnd_outOfSequence hs⟩

/-- Settles O49: the command's check fails (`execRdb_notAvail`). -/
theorem rdbRefusesUnavailableBytes : Obligations.RdbRefusesUnavailableBytes :=
  fun _ _ hs h => execRdb_notAvail hs h

/-! ### The cause of ILLEGAL (R173, R81) -/

/-- The fault code tells the cause (R171). -/
theorem Cause.code_injective : Function.Injective Cause.code := by
  intro j k
  cases j <;> cases k <;> decide

theorem faultEntry_inj {j k : Cause} {s : State} (h : faultEntry j s = faultEntry k s) : j = k := by
  have hcode : j.code = k.code := congrArg (fun t : State => t.block.err) h
  exact Cause.code_injective hcode

/-- An executed command responds with `err = 0`, so it is no fault entry. -/
theorem next_respond_ne_faultEntry (b : Block) (v : Word) (k : Cause) (s : State) :
    (.next (respond b v s) : Result) ≠ .next (faultEntry k s) := by
  intro h
  have hresponse : (respond b v s).response = (faultEntry k s).response :=
    congrArg State.response (Host.Outcome.next.inj h)
  simp at hresponse

theorem finish_ne_faultEntry (r : Except Fault Block) (k : Cause) (s : State) :
    finish r s ≠ .next (faultEntry k s) := by
  cases r with
  | ok b => exact next_respond_ne_faultEntry b (statusWord b) k s
  | error f => nofun

/-- R173: the register number 7, and no other, is reserved. -/
theorem wf_rdr_iff (n : BitVec 3) : (Instr.rdr n).wf = true ↔ n ≠ 7#3 := bne_iff_ne

section Unfaulted
variable {s : State} (hs : s.block.faulted = false)
include hs

theorem answer_ne_faultEntry (v : Word) (k : Cause) : answer v s ≠ .next (faultEntry k s) := by
  rw [answer_of_not_faulted hs]
  exact next_respond_ne_faultEntry s.block v k s

/-- A packet command whose check raises one cause raises no other (R81). -/
theorem gated_check_ne_faultEntry {j k : Cause} (hjk : j ≠ k) (check : Bool) {r : Result}
    (hr : r ≠ .next (faultEntry k s)) :
    gated s (if check then .next (raiseFault j s) else r) ≠ .next (faultEntry k s) := by
  cases check with
  | true =>
    rw [gated_check_of_fails hs rfl j r]
    exact fun h => hjk (faultEntry_inj (Host.Outcome.next.inj h))
  | false => rwa [gated_check_of_passes hs rfl j r]

/-- R173, R81: a reserved opcode and the reserved register number raise `ILLEGAL`. -/
theorem exec_of_ill_formed {i : Instr} (h : i.wf = false) : exec i s = .next (faultEntry .illegal s) := by
  have hraise : (.next (raiseFault .illegal s) : Result) = .next (faultEntry .illegal s) := by
    rw [raiseFault_of_not_faulted hs]
  cases i with
  | rdr n =>
    have hn : n = 7#3 := not_not.mp ((check_false_iff (wf_rdr_iff n)).mp h)
    rw [hn]
    exact execRdr_seven hs
  | reserved7 _ | reservedE _ | reservedF _ => exact hraise
  | nop | clr | beginPacket _ | pushw _ | endPacket | rdb _ => cases h
  | bswap _ | brev8 _ | reord _ | pchk _ | decw _ | xtr _ => cases h

/-- R173: a well-formed command executes or raises one of the other three causes. -/
theorem exec_ne_illegal_of_wf {i : Instr} (h : i.wf = true) : exec i s ≠ .next (faultEntry .illegal s) := by
  cases i with
  | nop => exact answer_ne_faultEntry hs (statusWord s.block) .illegal
  | clr => exact next_respond_ne_faultEntry (clearBlock s.block) _ .illegal s
  | beginPacket size => exact gated_check_ne_faultEntry hs (by decide) _ (next_respond_ne_faultEntry _ _ .illegal s)
  | pushw w => exact gated_check_ne_faultEntry hs (by decide) _ (finish_ne_faultEntry _ .illegal s)
  | endPacket => exact gated_check_ne_faultEntry hs (by decide) _ (finish_ne_faultEntry _ .illegal s)
  | rdb index =>
    refine gated_check_ne_faultEntry hs (by decide) _ ?_
    cases loadByte s.block index.toNat with
    | ok v => exact next_respond_ne_faultEntry s.block _ .illegal s
    | error f => nofun
  | rdr n =>
    simp only [exec, execRdr]
    cases hread : readRegister n s.block with
    | some v => exact next_respond_ne_faultEntry s.block v .illegal s
    | none => exact absurd ((readRegister_eq_none_iff n s.block).mp hread) ((wf_rdr_iff n).mp h)
  | bswap _ | brev8 _ | reord _ | pchk _ | xtr _ => exact answer_ne_faultEntry hs _ .illegal
  | decw w =>
    refine (gated_of_not_faulted hs _).trans_ne ?_
    exact next_respond_ne_faultEntry _ _ .illegal s
  | reserved7 _ | reservedE _ | reservedF _ => cases h

end Unfaulted

/-- Settles O22: the two directions are `exec_of_ill_formed` and `exec_ne_illegal_of_wf`. -/
theorem illFormedCommandsAndOnlyThoseRaiseIllegal : Obligations.IllFormedCommandsAndOnlyThoseRaiseIllegal :=
  fun _ _ hs => ⟨exec_of_ill_formed hs, exec_ne_illegal_of_wf hs⟩

/-! ### The fault state (R178, R179) -/

section Faulted
variable {s : State} (hs : s.block.faulted = true)
include hs

/-- R178: a decoded command but `CLR` and `RDR` 0 to 6 is refused, by the gate or because no second fault is taken. -/
theorem exec_of_faulted {i : Instr} (hclr : i ≠ .clr) (hrdr : ∀ n : BitVec 3, n ≠ 7#3 → i ≠ .rdr n) :
    exec i s = .next (refuse s) := by
  have hraise : (.next (raiseFault .illegal s) : Result) = .next (refuse s) := by rw [raiseFault_of_faulted hs]
  cases i with
  | clr => exact absurd rfl hclr
  | rdr n =>
    have hn : n = 7#3 := not_not.mp fun hn => hrdr n hn rfl
    rw [← hraise, exec, execRdr, (readRegister_eq_none_iff n s.block).mpr hn]
  | reserved7 _ | reservedE _ | reservedF _ => exact hraise
  | nop | beginPacket _ | pushw _ | endPacket | rdb _ | bswap _ | brev8 _ | reord _ | pchk _ | decw _ | xtr _ =>
    exact gated_of_faulted hs _

/-- R178, R179: in the fault state every command but `CLR` keeps the block. -/
theorem exec_block_of_faulted {i : Instr} {t : State} (h : exec i s = .next t) : t.block = s.block ∨ i = .clr := by
  rcases exec_cases h with ⟨_, rfl⟩ | ⟨hfault, _⟩ | ⟨hi, b, v, rfl, heffect⟩
  · exact .inl rfl
  · exact absurd hfault (by simp [hs])
  · rcases hi with hfault | hclr | ⟨n, rfl⟩
    · exact absurd hfault (by simp [hs])
    · exact .inr hclr
    · exact .inl heffect.2

end Faulted

/-- Settles O20: a word that is no command is refused as its fault would be a second one; a decoded command is
refused by `exec_of_faulted`. -/
theorem faultStateRefusesAllButClrAndRdr : Obligations.FaultStateRefusesAllButClrAndRdr := by
  intro s c hs hclr hrdr
  rw [step_issue]
  cases hdecode : decode c with
  | error e => rw [runCommand, hdecode, rejectWord, raiseFault_of_faulted hs, refuse]
  | ok i =>
    rw [runCommand_of_decode_ok hdecode]
    exact exec_of_faulted hs (fun hi => hclr (hi ▸ hdecode)) fun n hn hi => hrdr n hn (hi ▸ hdecode)

/-- Settles O21: of everything a step can be (`step_cases`), the idle step and the refusals keep the block, and a
decoded command that does not is `CLR` (`exec_block_of_faulted`); hardware reset and `CLR` leave the registers of
the reset state whatever they find. -/
theorem onlyClrAndResetLeaveTheFaultState : Obligations.OnlyClrAndResetLeaveTheFaultState := by
  refine ⟨fun s t hs hstep => ?_, fun s haction => ?_⟩
  · rcases step_cases hstep with
      ⟨_, ht⟩ | ⟨rest, hhost, _⟩ | ⟨c, rest, i, hhost, hdecode, ht⟩ | ⟨_, rest, _, _, _, ht⟩
    · cases ht
      exact .inl rfl
    · exact .inr (.inl ⟨rest, hhost⟩)
    · rcases exec_block_of_faulted (s := { s with host := rest }) hs ht.symm with hblock | rfl
      · exact .inl hblock
      · exact .inr (.inr ⟨c, rest, hhost, hdecode⟩)
    · rw [raiseFault_of_faulted (s := { s with host := rest }) hs] at ht
      cases ht
      exact .inl rfl
  · rcases haction with ⟨rest, hhost⟩ | ⟨c, rest, hhost, hdecode⟩
    · exact ⟨_, step_hardwareReset hhost, rfl, rfl, rfl⟩
    · exact ⟨_, (step_command hhost).trans (runCommand_of_decode_ok hdecode _), rfl, rfl, rfl⟩

end Sys2Proof.Machine

namespace Sys2Proof.Machine

/-! ### Progress (R202) -/

/-- Settles O57: of everything a step can be (`step_cases`), only a decoded command could stop, and from a consistent
state it answers (`exec_answers`), since taking it off the host's list leaves the block. -/
theorem consistentMachinesNeverStop : Obligations.ConsistentMachinesNeverStop := by
  intro s hs
  rcases step_cases (s := s) rfl with
    ⟨_, hidle⟩ | ⟨rest, _, hreset⟩ | ⟨_, rest, i, _, _, hcommand⟩ | ⟨_, rest, _, _, _, hreject⟩
  · exact ⟨_, hidle⟩
  · exact ⟨_, hreset⟩
  · have htaken : State.Consistent { s with host := rest } := hs
    rw [hcommand]
    exact exec_answers htaken i
  · exact ⟨_, hreject⟩

/-! ### Hardware reset and `CLR` (R192) -/

/-- R37, R190: no register after a hardware reset depends on what stood before it. -/
theorem hardwareReset_registers (s : State) : (hardwareReset s).block.registers = State.reset.block.registers := rfl

/-- R37, R161: nor does one after `CLR`. -/
theorem clearBlock_registers (b : Block) : (clearBlock b).registers = State.reset.block.registers := rfl

/-- Settles O12: hardware reset (`step_hardwareReset`) and `CLR`, which has no fault gate, both leave
`Block.reset` in all but `OBUF`, whatever they find. -/
theorem hardwareResetAndClrAgree : Obligations.HardwareResetAndClrAgree := by
  intro s rest
  have hclr : exec .clr s = .next (respondStatus (clearBlock s.block) s) := rfl
  exact ⟨_, _, step_hardwareReset rfl, hclr, hardwareReset_registers _, clearBlock_registers s.block, rfl, ⟨_, rfl⟩, rfl⟩

end Sys2Proof.Machine
